-- ==== Sys2Proof/Word.lean ====
section
/-! DEFINITION. The widths of the block (spec/00_scope.md R7). Every value is unsigned; nothing sign-extends (spec/00_scope.md §6). -/

namespace Sys2Proof

/-- `u32`: a pixel word, a command word, a bus data word and a bus offset (R7). -/
abbrev Word := BitVec 32

/-- `u16`: WIDTH and HEIGHT (R7). -/
abbrev Dim := BitVec 16

/-- `u8`: a channel and a message byte (R7). -/
abbrev Byte := BitVec 8

/-- `u2`: the low bits of a channel, and one group of a byte (R110, R114). -/
abbrev Pair := BitVec 2

end Sys2Proof
end

