-- ==== Sys2Proof/Machine/HostTypes.lean ====
section
/-! DEFINITION. What the host can name and do: the locations of the port (spec/10_state.md register map, spec/20_memory.md R61), one port
access (R60), the sequencer state that a host program may check (R46), and the lines of a host program (spec/30_encoding.md R98). -/

namespace Sys2Proof.Machine

/-- The 14 registers of the register map, in the order of their offsets. -/
inductive Reg where
  | id | param | ctrl | cmd | status | width | height | msgLen | capacity | resultLen | pixA | byteA | pixR | byteR
deriving DecidableEq, Repr

/-- The four buffers (R42). -/
inductive Buf where
  | imgIn | imgOut | msgIn | msgOut
deriving DecidableEq, Repr

/-- What a mapped offset selects: a register, or entry `i` of a buffer (R62). -/
inductive Loc where
  | reg (r : Reg)
  | entry (b : Buf) (i : Nat)
deriving DecidableEq, Repr

/-- The sequencer state `op` (R46). STATUS.BUSY mirrors it and has no storage of its own (R28). -/
inductive Op where
  | idle
  | busy
deriving DecidableEq, Repr

/-- The direction of an access, and the 32 bits of data that a write carries (R60). -/
inductive Dir where
  | read
  | write (data : Word)
deriving DecidableEq, Repr

/-- One access on the port: an offset, a size in bits and a direction (R60). -/
structure Access where
  offset : Word
  bits   : Nat
  dir    : Dir
deriving DecidableEq, Repr

/-- Why an access is a bus error (R70). All give the same response on the port; the reasons are told apart for claims. -/
inductive BusError where
  /-- The size is not 32 bits (R68). -/
  | badSize
  /-- A[1:0] is not 0 (R68). -/
  | misaligned
  /-- A reserved range, or an entry index at or above N_MAX (R69). -/
  | unmapped
  /-- A write to a read-only register or to an output window (R22(b), R71). -/
  | readOnly
deriving DecidableEq, Repr

/-- What the port answered to the last access (R60): OKAY to a write, OKAY with data to a read, or ERROR. -/
inductive Answer where
  | none
  | okay
  | data (v : Word)
  | error
deriving DecidableEq, Repr

/-- LOC of a host program: a register name, a window entry or a hex offset (R98). -/
inductive LocName where
  | reg (r : Reg)
  | entry (b : Buf) (i : Nat)
  | hex (a : Word)
deriving DecidableEq, Repr

/-- V of a host program: a numeral (a character literal is its ASCII code), or a temporary, which spec/95_test_vectors.md
P3 line 5 uses (R98; log entry 10). -/
inductive Value where
  | lit (v : Word)
  | temp (t : Nat)
deriving DecidableEq, Repr

/-- A field of a word, bits hi down to lo: of a temporary (R98), or of a register that an `expect` line checks (log entry 10). -/
structure Field where
  hi : Nat
  lo : Nat
deriving DecidableEq, Repr

/-- E of an `expect` line, 'a check of the state the rules give' with no bus access (R98). Which checks there are is the model's
choice (log entry 10). -/
inductive Expectation where
  /-- The interrupt output is `v` (R220). -/
  | irq (v : Bool)
  /-- Field `f` of temporary `t` is `v`. -/
  | field (t : Nat) (f : Field) (v : Word)
  /-- Field `f` of register `r`, of STATUS a flag, is `v` (R192). -/
  | reg (r : Reg) (f : Field) (v : Word)
  /-- Entry `i` of buffer `b` exists and holds the word `v`, or, for none, is unwritten (R45, R192). -/
  | entry (b : Buf) (i : Nat) (v : Option Word)
  /-- `op` is `o` (R46). -/
  | op (o : Op)
  /-- PEND is `w` (R49). -/
  | pend (w : Word)
  /-- The check `e` does not hold. -/
  | neg (e : Expectation)
  /-- Both checks hold. -/
  | both (e e' : Expectation)
deriving DecidableEq, Repr

/-- A line of a host program (R98). Temporaries and labels are numbers. -/
inductive HostLine where
  /-- `wr LOC, V` -/
  | wr (loc : LocName) (v : Value)
  /-- `rd LOC -> t` -/
  | rd (loc : LocName) (t : Nat)
  /-- `label:` -/
  | label (l : Nat)
  /-- `if t.F == v goto label` -/
  | ifGoto (t : Nat) (f : Field) (v : Word) (l : Nat)
  /-- `expect E` -/
  | expect (e : Expectation)
deriving DecidableEq, Repr

/-- Who moves next, and how (R5, R185, R240). -/
inductive Event where
  /-- The host issues one access on the port (R60). -/
  | access (a : Access)
  /-- The host executes the next line of its program (R98). -/
  | line
  /-- The engine's turn: its completion while op = BUSY, no step while op = IDLE (R185). -/
  | engine
  /-- The reset input is asserted (R240). -/
  | hwReset
deriving DecidableEq, Repr

end Sys2Proof.Machine
end

