-- ==== Sys2Proof/Syntax.lean ====
section
/-! DEFINITION. The commands of KKSU-CMD version 1: one constructor per row of spec/opcode_table.json (R95). -/

namespace Sys2Proof

/-- A legal command (R95). No command carries an immediate, a register number or an address; the one field is the S
bit of EXTRACT (R92, R94). A word that is none of these is illegal (R97) and is no `Instr`: the decoder rejects it by
name and the engine completes it with ILLEGAL_CMD. -/
inductive Instr where
  /-- NOP, 0x00000000 (R188). -/
  | nop
  /-- CAPCHK, 0x00000001 (R131). -/
  | capchk
  /-- EMBED, 0x00000002 (R141). -/
  | embed
  /-- EXTRACT: the S bit false is EXTRACT.IN, 0x00000003, and true is EXTRACT.OUT, 0x00000013 (R92, R161). -/
  | extract (sBit : Bool)
  /-- PACK, 0x00000004 (R150). -/
  | pack
  /-- UNPACK, 0x00000005 (R175). -/
  | unpack
  /-- SRESET, 0x0000000F (R190). -/
  | sreset
deriving DecidableEq, Repr

end Sys2Proof
end

