-- ==== Sys2Proof/WellFormed.lean ====
section
/-! DEFINITION. Checks on what is put before the machine: a command, a command word (R91 to R93) and a host program (R98). The step never
relies on them: an illegal word completes with ILLEGAL_CMD, and an ill-formed host line is refused by name. -/

namespace Sys2Proof

/-- Every `Instr` is well formed: no command has an operand with a range of its own (R94). -/
def Instr.wf (i : Instr) : Bool :=
  match i with
  | .nop => true
  | .capchk => true
  | .embed => true
  | .extract _ => true
  | .pack => true
  | .unpack => true
  | .sreset => true

/-- RSV = word[31:5] is 0 (R93). -/
def CommandWord.rsvZero (w : Word) : Bool := w.extractLsb' 5 27 == 0#27

/-- OP = word[3:0] is not one of the reserved opcodes 0x6 to 0xE (R95). -/
def CommandWord.opKnown (w : Word) : Bool :=
  let op := (w.extractLsb' 0 4).toNat
  op ≤ 5 || op == 15

/-- S = word[4] is 0, or OP is EXTRACT's 0x3 (R92). -/
def CommandWord.selectFits (w : Word) : Bool := !w[4] || w.extractLsb' 0 4 == 3#4

/-- A word is legal by its fields (R91 to R93). -/
def CommandWord.wf (w : Word) : Bool :=
  CommandWord.rsvZero w && CommandWord.opKnown w && CommandWord.selectFits w

namespace Machine

/-- The labels a program declares, in order (R98). -/
def HostProgram.labels : List HostLine → List Nat
  | [] => []
  | .label l :: rest => l :: HostProgram.labels rest
  | .wr _ _ :: rest => HostProgram.labels rest
  | .rd _ _ :: rest => HostProgram.labels rest
  | .ifGoto _ _ _ _ :: rest => HostProgram.labels rest
  | .expect _ :: rest => HostProgram.labels rest

/-- A branch names a label of `known` (R98). -/
def HostLine.gotoKnown (known : List Nat) : HostLine → Bool
  | .ifGoto _ _ _ l => known.contains l
  | .wr _ _ => true
  | .rd _ _ => true
  | .label _ => true
  | .expect _ => true

/-- Index `i` names an entry that some instance has, below 2^22 (R6, R62; log entry 22). -/
def entryNamed (i : Nat) : Bool := decide (i < 4194304)

/-- A LOC that is an entry name names an entry (R98; log entry 22). -/
def LocName.entriesNamed : LocName → Bool
  | .reg _ => true
  | .entry _ i => entryNamed i
  | .hex _ => true

/-- The entries a check looks at are named (log entry 22). -/
def Expectation.entriesNamed : Expectation → Bool
  | .irq _ => true
  | .field _ _ _ => true
  | .reg _ _ _ => true
  | .entry _ i _ => entryNamed i
  | .op _ => true
  | .pend _ => true
  | .neg e => e.entriesNamed
  | .both e e' => e.entriesNamed && e'.entriesNamed

/-- Every entry name of a line names an entry (R98; log entry 22). -/
def HostLine.entriesNamed : HostLine → Bool
  | .wr loc _ => loc.entriesNamed
  | .rd loc _ => loc.entriesNamed
  | .label _ => true
  | .ifGoto _ _ _ _ => true
  | .expect e => e.entriesNamed

/-- The temporaries a check uses are among `set`. -/
def Expectation.tempsSet (set : List Nat) : Expectation → Bool
  | .irq _ => true
  | .field t _ _ => set.contains t
  | .reg _ _ _ => true
  | .entry _ _ _ => true
  | .op _ => true
  | .pend _ => true
  | .neg e => e.tempsSet set
  | .both e e' => e.tempsSet set && e'.tempsSet set

/-- The temporaries a line uses are among `set` (R98). -/
def HostLine.tempsSet (set : List Nat) : HostLine → Bool
  | .wr _ (.temp t) => set.contains t
  | .wr _ (.lit _) => true
  | .ifGoto t _ _ _ => set.contains t
  | .expect e => e.tempsSet set
  | .rd _ _ => true
  | .label _ => true

/-- Every line uses only temporaries that a line above it reads into. -/
def HostProgram.tempsSet : List Nat → List HostLine → Bool
  | _, [] => true
  | set, .rd loc t :: rest => HostLine.tempsSet set (.rd loc t) && HostProgram.tempsSet (t :: set) rest
  | set, .wr loc v :: rest => HostLine.tempsSet set (.wr loc v) && HostProgram.tempsSet set rest
  | set, .label l :: rest => HostLine.tempsSet set (.label l) && HostProgram.tempsSet set rest
  | set, .ifGoto t f v l :: rest => HostLine.tempsSet set (.ifGoto t f v l) && HostProgram.tempsSet set rest
  | set, .expect e :: rest => HostLine.tempsSet set (.expect e) && HostProgram.tempsSet set rest

/-- A host program is well formed: its labels are declared once, every branch has its label, every entry name names an entry,
and every temporary is read into on a line above its use (R98). -/
def HostProgram.wf (p : List HostLine) : Bool :=
  decide (HostProgram.labels p).Nodup && p.all (HostLine.gotoKnown (HostProgram.labels p)) &&
    p.all HostLine.entriesNamed && HostProgram.tempsSet [] p

end Machine

end Sys2Proof
end

