-- ==== Sys2Proof/Decode.lean ====
section
/-! DEFINITION. The decoder of R96, total on every 32-bit word and rejecting by name (R97); after it the encoder, and the table's view of
the decoder that the host reads. -/

namespace Sys2Proof

/-- Why a word is illegal (R97). The spec gives one verdict, ILLEGAL, for all three (log entry 14). -/
inductive Illegal where
  /-- A bit of RSV = word[31:5] is set (R93). -/
  | reservedBits
  /-- OP is one of 0x6 to 0xE (R95). -/
  | reservedOpcode
  /-- S = 1 with an opcode other than EXTRACT's (R92). -/
  | straySelect
deriving DecidableEq, Repr

/-- The name under which the illegal word `w` is rejected; the first that applies (R97). -/
def illegalReason (w : Word) : Illegal :=
  if !CommandWord.rsvZero w then .reservedBits
  else if !CommandWord.opKnown w then .reservedOpcode
  else .straySelect

/-- The decode function of R96, in its order. -/
def decode (w : Word) : Except Illegal Instr :=
  if w = 0x00000000#32 then .ok .nop
  else if w = 0x00000001#32 then .ok .capchk
  else if w = 0x00000002#32 then .ok .embed
  else if w = 0x00000003#32 then .ok (.extract false)
  else if w = 0x00000013#32 then .ok (.extract true)
  else if w = 0x00000004#32 then .ok .pack
  else if w = 0x00000005#32 then .ok .unpack
  else if w = 0x0000000F#32 then .ok .sreset
  else .error (illegalReason w)

/-- OP = word[3:0] of a command (R95). -/
def opcodeOf (i : Instr) : BitVec 4 :=
  match i with
  | .nop => 0x0#4
  | .capchk => 0x1#4
  | .embed => 0x2#4
  | .extract _ => 0x3#4
  | .pack => 0x4#4
  | .unpack => 0x5#4
  | .sreset => 0xF#4

/-- S = word[4] of a command (R92). -/
def selectOf (i : Instr) : Bool :=
  match i with
  | .extract sBit => sBit
  | .nop => false
  | .capchk => false
  | .embed => false
  | .pack => false
  | .unpack => false
  | .sreset => false

/-- The command word: RSV, then S, then OP (R90). -/
def encode (i : Instr) : Word := 0#27 ++ BitVec.ofBool (selectOf i) ++ opcodeOf i

/-- The instruction the decoder reads from a table word of `nbits` bits; every bit at or above `nbits` is 0. A command is
one 32-bit write, so a word with a bit above bit 31 is no command (R90). -/
def decodeTableWord (nbits w : Nat) : Option Instr :=
  let v := w % 2 ^ nbits
  if v < 2 ^ 32 then (decode (BitVec.ofNat 32 v)).toOption else none

end Sys2Proof
end

