-- ==== Sys2Proof/Machine/Datapath.lean ====
section
/-! DEFINITION. The combinational functions of the three core sub-blocks (spec/40_datapath.md): pixel_channel_slicer, packer and
empty_marker_detector. All are total on their widths. -/

namespace Sys2Proof.Machine

/-- Channel Ci of the pixel word P, bits [8i+7 : 8i] (R63). -/
def channel (P : Word) (i : Nat) : Byte := P.extractLsb' (8 * i) 8

/-- The LSB field of a channel, `c & 0b11` (R110). -/
def lsb2 (c : Byte) : Pair := c.extractLsb' 0 2

/-- The part of a channel that encoding preserves, `c & 0xFC` (R111). -/
def hi6 (c : Byte) : Byte := c &&& 0xFC#8

/-- The 2-LSB selector of each channel in index order (R112). -/
def slice (P : Word) : Pair × Pair × Pair × Pair :=
  (lsb2 (channel P 0), lsb2 (channel P 1), lsb2 (channel P 2), lsb2 (channel P 3))

/-- `(c & 0xFC) | g` (R113). -/
def setlsb2 (c : Byte) (g : Pair) : Byte := hi6 c ||| g.setWidth 8

/-- The i-th 2-bit group of a byte, `(B >> 2i) & 0b11` (R114). -/
def group (B : Byte) (i : Nat) : Pair := (B >>> (2 * i)).setWidth 2

/-- The embed-mode datapath: channel Ci's low 2 bits are replaced with group i (R115). -/
def pack (P : Word) (B : Byte) : Word :=
  setlsb2 (channel P 3) (group B 3) ++ setlsb2 (channel P 2) (group B 2) ++
    setlsb2 (channel P 1) (group B 1) ++ setlsb2 (channel P 0) (group B 0)

/-- The extract-mode datapath: the byte composed of the four LSB fields (R116). -/
def unpack (P : Word) : Byte :=
  match slice P with
  | (g0, g1, g2, g3) =>
    g0.setWidth 8 ||| (g1.setWidth 8 <<< 2) ||| (g2.setWidth 8 <<< 4) ||| (g3.setWidth 8 <<< 6)

/-- The empty_marker_detector, `B == 0x00` (R120). -/
def empty (B : Byte) : Bool := B == 0x00#8

end Sys2Proof.Machine
end

