-- ==== Sys2Proof/Config.lean ====
section
/-! DEFINITION. What one instance of the block fixes (N_MAX, R6) and the values the spec leaves open (R184, spec/93_implementation_defined.md U1, U2). -/

namespace Sys2Proof

/-- A legal value of the parameter `N_MAX`: 1 to 2^22 (R6). The range is part of the type, so no state holds an
illegal depth. -/
structure Depth where
  /-- `N_MAX` itself, the number of entries of each of the four buffers (R6). -/
  n   : Nat
  pos : 1 ≤ n
  le  : n ≤ 4194304
deriving DecidableEq, Repr

/-- Uninterpreted: one less than the `N_MAX` of the instance that `State.reset` describes. Nothing can evaluate it
(R6 leaves `N_MAX` OPEN; log entry 1). -/
opaque Config.nMaxLessOne : Fin 4194304

/-- The `N_MAX` of the instance that `State.reset` describes: some legal value, not a chosen one (R6; log entry 1). -/
def Config.nMax : Depth :=
  ⟨Config.nMaxLessOne.val + 1, Nat.le_add_left 1 _, Config.nMaxLessOne.isLt⟩

/-- Uninterpreted: the 32-bit value that the k-th unspecified read of the BUSY window returns (R184, U1; log entry 3). -/
opaque Config.drawWord : Nat → Word

/-- Uninterpreted: the STATUS.CAP_OK bit that the k-th unspecified read of the BUSY window returns (R184, U2; log entry 3). -/
opaque Config.drawBit : Nat → Bool

end Sys2Proof
end

