-- ==== Sys2Proof/Machine/State.lean ====
section
/-! DEFINITION. The state of the block and of its two agents as plain data, the reasons a step can stop, and the state after reset. -/

namespace Sys2Proof.Machine

/-- STATUS.ERR (R32, R210). The codes 4 to 15 are never produced, so the register has no constructor for them. -/
inductive ErrCode where
  /-- 0: the command did what its rule says. -/
  | none
  /-- 1: the message does not fit the image (R212). -/
  | capacity
  /-- 2: the image does not fit the buffers (R211). -/
  | badDim
  /-- 3: the accepted word decodes as ILLEGAL (R213). -/
  | illegalCmd
deriving DecidableEq, Repr

/-- Sparse storage by index: the written entries, index and value, with strictly rising indexes. An index that is not
listed is unwritten (R45). -/
abbrev Store (α : Type) := List (Nat × α)

/-- The four buffers of N_MAX entries (R42): 32-bit pixel words (R63) and message bytes (R64; `Store Byte` is a list of `Host.Cell`). -/
structure Memory where
  imgIn  : Store Word
  imgOut : Store Word
  msgIn  : Store Byte
  msgOut : Store Byte
deriving DecidableEq, Repr

/-- The state. -/
structure State where
  /-- `N_MAX`, constant for an instance; what PARAM reads (R6, R24). -/
  nMax      : Depth
  /-- CTRL.IRQ_EN (R25). -/
  irqEn     : Bool
  /-- STATUS.DONE (R29). -/
  done      : Bool
  /-- STATUS.CAP_OK (R30). -/
  capOk     : Bool
  /-- STATUS.BWE (R31). -/
  bwe       : Bool
  /-- STATUS.ERR (R32). -/
  err       : ErrCode
  /-- WIDTH.W (R33). -/
  width     : Dim
  /-- HEIGHT.H (R34). -/
  height    : Dim
  /-- MSG_LEN.L (R35). -/
  msgLen    : Word
  /-- RESULT_LEN.N (R37). -/
  resultLen : Word
  /-- PIX_A (R38). -/
  pixA      : Word
  /-- BYTE_A.B (R39). -/
  byteA     : Byte
  /-- PIX_R (R40). -/
  pixR      : Word
  /-- BYTE_R.BYTE (R41); BYTE_R.EMPTY has no storage of its own. -/
  byteR     : Byte
  /-- `op` (R46). -/
  op        : Op
  /-- `PEND` (R49). -/
  pend      : Word
  /-- The four buffers (R42). -/
  mem       : Memory
  /-- Model's own: how many unspecified values reads have drawn so far (R184; log entry 3). -/
  draws     : Nat
  /-- What the port answered last (R60; log entry 4). -/
  answer    : Answer
  /-- Model's own: who moves next, first event first (R5, R185; log entry 2). -/
  events    : List Event
  /-- The host's program (R98). -/
  program   : List HostLine
  /-- The host's position in its program (R98). -/
  line      : Nat
  /-- The host's temporaries (R98). -/
  temps     : Store Word
deriving DecidableEq, Repr

/-- Why a run stops. -/
inductive Fault where
  /-- Raised by a host access that is a bus error (R70; spec/93_implementation_defined.md U7 makes it a fault of the access).
  Safe: the block's state is unchanged and a harness may go on (`State.continueAfterBusError`). -/
  | busError (e : BusError)
  /-- Raised by a host read of an unwritten entry (U3). Safe. -/
  | hostReadUnwritten (b : Buf) (i : Nat)
  /-- Raised by EMBED or EXTRACT when its completion reads an unwritten entry (U4). Safe. -/
  | engineReadUnwritten (b : Buf) (i : Nat)
  /-- Raised by the engine's turn when PEND holds SRESET, for which R186 has no case; no run reaches it (log entry 8). Safe. -/
  | sresetPending
  /-- Raised by an `expect` line whose check does not hold (R98; that this stops the run is log entry 10). Safe. -/
  | expectFailed (e : Expectation)
deriving DecidableEq, Repr

/-- What has no meaning. -/
inductive Refusal where
  /-- An instruction that exec does not model; raised by exec alone. Safe. No arm of this model raises it. -/
  | notModelled (mnemonic : String)
  /-- A host line branches to a label its program does not declare; raised by `runLine` (log entry 11). Safe. -/
  | undefinedLabel (l : Nat)
  /-- A host line uses a temporary that nothing has been read into; raised by `runLine` (log entry 11). Safe. -/
  | unsetTemp (t : Nat)
deriving DecidableEq, Repr

/-- The outcome of a step. -/
abbrev Result := Host.Outcome State Fault Refusal

/-- Every entry of every buffer unwritten (R241). -/
def Memory.unwritten : Memory := { imgIn := [], imgOut := [], msgIn := [], msgOut := [] }

/-- The state right after hardware reset of an instance whose N_MAX is `d` (R50, R240, R241). The host has no program
loaded and nothing is scheduled. -/
def State.resetWith (d : Depth) : State :=
  { nMax := d, irqEn := false, done := false, capOk := false, bwe := false, err := .none,
    width := 0#16, height := 0#16, msgLen := 0#32, resultLen := 0#32, pixA := 0#32, byteA := 0#8, pixR := 0#32, byteR := 0#8,
    op := .idle, pend := 0#32, mem := .unwritten,
    draws := 0, answer := .none, events := [], program := [], line := 0, temps := [] }

/-- The state right after reset, for the instance whose N_MAX is the uninterpreted `Config.nMax` (R6, R240). -/
def State.reset : State := State.resetWith Config.nMax

end Sys2Proof.Machine
end

