-- ==== Sys2Proof/Machine/Operands.lean ====
section
/-! DEFINITION. Where the commands find their operands: the implicit registers (R94), the pixel count (R36, R131), the storage index of a pixel
(R66), the scan order (R47), and the locations of the port (R61, R62). -/

namespace Sys2Proof.Machine

/-- n = W × H, exact (R131, R134). -/
def State.pixelCount (s : State) : Nat := s.width.toNat * s.height.toNat

/-- L as a number (R35). -/
def State.len (s : State) : Nat := s.msgLen.toNat

/-- The image fits the buffers, W × H <= N_MAX (R43, R211). -/
def State.imageFits (s : State) : Bool := s.pixelCount ≤ s.nMax.n

/-- The storage index of pixel (x, y), `y*W + x` (R66). -/
def idx (width x y : Nat) : Nat := y * width + x

/-- The pixels in scan order: x outer, y inner (R47). -/
def scan (width height : Nat) : List (Nat × Nat) :=
  (List.range width).flatMap fun x => (List.range height).map fun y => (x, y)

/-- The buffer EXTRACT decodes: IMG_IN for S = 0, IMG_OUT for S = 1 (R92). -/
def sourceBuf (sBit : Bool) : Buf := if sBit then .imgOut else .imgIn

/-- The content of the image EXTRACT decodes (R161). -/
def Memory.source (m : Memory) (sBit : Bool) : Store Word := if sBit then m.imgOut else m.imgIn

/-- The register at word `k` of the register map, offset 4k (spec/10_state.md register map). -/
def regAt (k : Nat) : Option Reg :=
  match k with
  | 0 => some .id
  | 1 => some .param
  | 2 => some .ctrl
  | 3 => some .cmd
  | 4 => some .status
  | 5 => some .width
  | 6 => some .height
  | 7 => some .msgLen
  | 8 => some .capacity
  | 9 => some .resultLen
  | 10 => some .pixA
  | 11 => some .byteA
  | 12 => some .pixR
  | 13 => some .byteR
  | _ => none

/-- The offset of a register (spec/10_state.md register map). -/
def Reg.offset (r : Reg) : Word :=
  match r with
  | .id => 0x00#32
  | .param => 0x04#32
  | .ctrl => 0x08#32
  | .cmd => 0x0C#32
  | .status => 0x10#32
  | .width => 0x14#32
  | .height => 0x18#32
  | .msgLen => 0x1C#32
  | .capacity => 0x20#32
  | .resultLen => 0x24#32
  | .pixA => 0x28#32
  | .byteA => 0x2C#32
  | .pixR => 0x30#32
  | .byteR => 0x34#32

/-- The base of a buffer's window (R62). -/
def Buf.base (b : Buf) : Word :=
  match b with
  | .imgIn => 0x01000000#32
  | .imgOut => 0x02000000#32
  | .msgIn => 0x03000000#32
  | .msgOut => 0x04000000#32

/-- The buffer that A[26:24] chooses (R62). -/
def bufAt (k : Nat) : Option Buf :=
  match k with
  | 1 => some .imgIn
  | 2 => some .imgOut
  | 3 => some .msgIn
  | 4 => some .msgOut
  | _ => none

/-- The location at an aligned offset: a register below 0x38, entry A[23:2] of the buffer A[26:24] where A[31:27] = 0 and
the entry exists, nothing elsewhere (R61, R62, R69). -/
def locAt (nMax : Nat) (a : Word) : Option Loc :=
  if a.toNat < 0x38 then (regAt (a.toNat / 4)).map .reg
  else if a.extractLsb' 27 5 = 0#5 then
    match bufAt (a.extractLsb' 24 3).toNat with
    | some b => if (a.extractLsb' 2 22).toNat < nMax then some (.entry b (a.extractLsb' 2 22).toNat) else none
    | none => none
  else none

/-- The offset a host program's LOC stands for (R98, R62). DESIGN CHOICE (log entry 22): an entry name whose index is past its
window stands for `base + 4*i` all the same, taken modulo 2^32, where R62 and R98 do not say what it names; `HostProgram.wf`
refuses it. -/
def LocName.offset (l : LocName) : Word :=
  match l with
  | .reg r => r.offset
  | .entry b i => b.base + BitVec.ofNat 32 (4 * i)
  | .hex a => a

end Sys2Proof.Machine
end

