-- ==== Sys2Proof/Machine/Flags.lean ====
section
/-! DEFINITION. The flags and the words the host reads them in: the capacity function (R130), the interrupt output (R220), and the STATUS and
BYTE_R layouts (R27, R41, R192). -/

namespace Sys2Proof.Machine

/-- The capacity function `L <= n` (R130). -/
def cap (L n : Nat) : Bool := L ≤ n

/-- The code of STATUS.ERR (R210). -/
def ErrCode.code (e : ErrCode) : BitVec 4 :=
  match e with
  | .none => 0#4
  | .capacity => 1#4
  | .badDim => 2#4
  | .illegalCmd => 3#4

/-- STATUS.BUSY: 1 exactly when op = BUSY (R28). -/
def State.busy (s : State) : Bool := s.op == .busy

/-- The interrupt output, DONE AND IRQ_EN at every moment (R220). -/
def State.irq (s : State) : Bool := s.done && s.irqEn

/-- STATUS as the host reads it, its CAP_OK bit given apart, since a read in the BUSY window draws it (R27, R184, R192):
20 zeros, ERR, 4 zeros, BWE, CAP_OK, DONE, BUSY. -/
def State.statusWord (s : State) (capOkBit : Bool) : Word :=
  0#20 ++ s.err.code ++ 0#4 ++ BitVec.ofBool s.bwe ++ BitVec.ofBool capOkBit ++ BitVec.ofBool s.done ++ BitVec.ofBool s.busy

/-- BYTE_R as the host reads it: 23 zeros, EMPTY, BYTE (R41, R192). -/
def State.byteRWord (s : State) : Word := 0#23 ++ BitVec.ofBool (empty s.byteR) ++ s.byteR

/-- CAPACITY as the host reads it: W × H (R36). -/
def State.capacityWord (s : State) : Word := s.width.setWidth 32 * s.height.setWidth 32

end Sys2Proof.Machine
end

