-- ==== Sys2Proof/Machine/Ops.lean ====
section
/-! DEFINITION. The named operations over buffers and registers: reading and writing an entry, acceptance (R181), the completion record, which
is also the block's error entry (R186, R216), the two resets (R190, R240) and the abort (R191). -/

namespace Sys2Proof.Machine

/-- The value of entry `i`, or none where it is unwritten (R45). -/
def Store.read {α : Type} (st : Store α) (i : Nat) : Option α :=
  match st with
  | [] => none
  | (j, v) :: rest => if j = i then some v else Store.read rest i

/-- Entry `i` given the value `v`; the indexes stay strictly rising (R45). -/
def Store.write {α : Type} (st : Store α) (i : Nat) (v : α) : Store α :=
  match st with
  | [] => [(i, v)]
  | (j, w) :: rest =>
    if i < j then (i, v) :: (j, w) :: rest
    else if i = j then (i, v) :: rest
    else (j, w) :: Store.write rest i v

/-- Every entry below `n` made unwritten (R191). -/
def Store.clearBelow {α : Type} (st : Store α) (n : Nat) : Store α := st.filter fun c => n ≤ c.1

/-- The canonical form of a buffer of `nMax` entries: strictly rising indexes, all below `nMax` (R42). -/
abbrev Store.wf {α : Type} (st : Store α) (nMax : Nat) : Prop :=
  st.Pairwise (fun c d => c.1 < d.1) ∧ ∀ c ∈ st, c.1 < nMax

/-- The canonical form of the four buffers. -/
abbrev Memory.wf (m : Memory) (nMax : Nat) : Prop :=
  m.imgIn.wf nMax ∧ m.imgOut.wf nMax ∧ m.msgIn.wf nMax ∧ m.msgOut.wf nMax

/-- Entry `i` of a buffer as the 32-bit word a host read returns, a message byte zero-extended (R64, R192). -/
def Memory.entryWord (m : Memory) (b : Buf) (i : Nat) : Option Word :=
  match b with
  | .imgIn => m.imgIn.read i
  | .imgOut => m.imgOut.read i
  | .msgIn => (m.msgIn.read i).map fun v => v.setWidth 32
  | .msgOut => (m.msgOut.read i).map fun v => v.setWidth 32

/-- MemRead(BUF, i): the engine's read of entry `i` of the buffer named `b`; an unwritten entry faults (U4). -/
def engineRead {α : Type} (b : Buf) (st : Store α) (i : Nat) : Except Fault α :=
  match st.read i with
  | some v => .ok v
  | none => .error (.engineReadUnwritten b i)

/-- The completion record of R186. With a code other than NONE it is the block's error entry: it saves nothing, changes
nothing but STATUS, and control goes nowhere (R216). -/
def complete (code : ErrCode) (s : State) : State := { s with err := code, op := .idle, done := true }

/-- What stands for a return from an error: the host clears DONE by writing 1 to STATUS bit 1, and BWE by writing 1 to
bit 3; ERR keeps its code (R27, R217). -/
def clearStatus (d : Word) (s : State) : State :=
  { s with done := s.done && !d[1], bwe := s.bwe && !d[3] }

/-- Acceptance of the word `w` while op = IDLE, other than SRESET (R181). -/
def accept (w : Word) (s : State) : State := { s with pend := w, op := .busy, done := false, err := .none }

/-- The buffers after the command in progress is aborted: the entries it could have written become unwritten (R191). -/
def abortedMem (s : State) : Memory :=
  if s.imageFits then
    match decode s.pend with
    | .ok .embed => { s.mem with imgOut := s.mem.imgOut.clearBelow s.pixelCount }
    | .ok (.extract _) => { s.mem with msgOut := s.mem.msgOut.clearBelow s.pixelCount }
    | .ok .nop => s.mem
    | .ok .capchk => s.mem
    | .ok .pack => s.mem
    | .ok .unpack => s.mem
    | .ok .sreset => s.mem
    | .error _ => s.mem
  else s.mem

/-- Every register and the hidden state at its reset value (R50, R190); the buffers, and what is not the block's own, stay. -/
def resetRegisters (s : State) : State :=
  { s with
    op := .idle, pend := 0#32,
    irqEn := false, done := false, capOk := false, bwe := false, err := .none,
    width := 0#16, height := 0#16, msgLen := 0#32, resultLen := 0#32,
    pixA := 0#32, byteA := 0#8, pixR := 0#32, byteR := 0#8 }

/-- Hardware reset: the registers at their reset values and every buffer entry unwritten; a command in progress is
abandoned (R240, R241). -/
def hardwareReset (s : State) : State := { resetRegisters s with mem := .unwritten }

end Sys2Proof.Machine
end

