-- ==== Sys2Proof/Machine/Capacity.lean ====
section
/-! DEFINITION. CAPCHK (spec/41_capacity.md R131). -/

namespace Sys2Proof.Machine

/-- CAPCHK: CAP_OK <- cap(L, W × H), no error ever, N_MAX not tested (R131). -/
def execCapchk (s : State) : Result :=
  .next (complete .none { s with capOk := cap s.len s.pixelCount })

end Sys2Proof.Machine
end

