-- ==== Sys2Proof/Machine/Control.lean ====
section
/-! DEFINITION. NOP and SRESET (spec/44_control.md R188, R190). -/

namespace Sys2Proof.Machine

/-- NOP: complete with no effect (R188). -/
def execNop (s : State) : Result := .next (complete .none s)

/-- SRESET: the command in progress, if any, is aborted, and every register returns to its reset value; there is no
completion (R190, R191). -/
def execSreset (s : State) : Result :=
  .next (resetRegisters (if s.op = .busy then { s with mem := abortedMem s } else s))

end Sys2Proof.Machine
end

