-- ==== Sys2Proof/Machine/Embed.lean ====
section
/-! DEFINITION. The embed mode: EMBED (spec/42_embed.md R141) and PACK (R150). -/

namespace Sys2Proof.Machine

/-- The byte EMBED stores at the pixel its message cursor `k` has reached: MSG_IN[k] while k < L, else the empty marker
(R141). -/
def embedByte (len : Nat) (m : Memory) (k : Nat) : Except Fault Byte :=
  if k < len then engineRead .msgIn m.msgIn k else .ok 0x00#8

/-- EMBED's work at the pixel (x, y): the byte is read, then the pixel, then the packed pixel is written (R141). -/
def embedPixel (width len : Nat) (p : Nat × Nat) (m : Memory) (k : Nat) : Except Fault Memory :=
  match embedByte len m k with
  | .error f => .error f
  | .ok b =>
    match engineRead .imgIn m.imgIn (idx width p.1 p.2) with
    | .error f => .error f
    | .ok px => .ok { m with imgOut := m.imgOut.write (idx width p.1 p.2) (pack px b) }

/-- EMBED's walk over the pixels still to visit, with its message cursor (R47, R141); answers the buffers and the final
cursor. -/
def embedScan (width len : Nat) (pixels : List (Nat × Nat)) (m : Memory) (k : Nat) : Except Fault (Memory × Nat) :=
  match pixels with
  | [] => .ok (m, k)
  | p :: rest =>
    match embedPixel width len p m k with
    | .error f => .error f
    | .ok m' => embedScan width len rest m' (if k < len then k + 1 else k)

/-- EMBED: CAP_OK is written in every case; BAD_DIM is tested before CAPACITY, and both before any buffer access; then
the walk, RESULT_LEN <- k and the completion (R141, R214). -/
def execEmbed (s : State) : Result :=
  let s1 := { s with capOk := cap s.len s.pixelCount }
  if !s.imageFits then .next (complete .badDim s1)
  else if !cap s.len s.pixelCount then .next (complete .capacity s1)
  else
    match embedScan s.width.toNat s.len (scan s.width.toNat s.height.toNat) s.mem 0 with
    | .error f => .fault f
    | .ok (m, k) => .next (complete .none { s1 with mem := m, resultLen := BitVec.ofNat 32 k })

/-- PACK: PIX_R <- pack(PIX_A, BYTE_A.B) (R150). -/
def execPack (s : State) : Result := .next (complete .none { s with pixR := pack s.pixA s.byteA })

end Sys2Proof.Machine
end

