-- ==== Sys2Proof/Machine/Extract.lean ====
section
/-! DEFINITION. The extract mode: EXTRACT (spec/43_extract.md R161) and UNPACK (R175). -/

namespace Sys2Proof.Machine

/-- EXTRACT's walk down column `x` over the rows still to visit: a byte other than the empty marker is written to
MSG_OUT[k]; the marker ends this column only (R161, R163). `b` names the source buffer, `src` is its content. -/
def extractColumn (b : Buf) (src : Store Word) (width x : Nat) (ys : List Nat) (out : Store Byte) (k : Nat) :
    Except Fault (Store Byte × Nat) :=
  match ys with
  | [] => .ok (out, k)
  | y :: rest =>
    match engineRead b src (idx width x y) with
    | .error f => .error f
    | .ok px =>
      if empty (unpack px) then .ok (out, k)
      else extractColumn b src width x rest (out.write k (unpack px)) (k + 1)

/-- EXTRACT's walk over the columns still to visit (R48, R161). -/
def extractScan (b : Buf) (src : Store Word) (width height : Nat) (xs : List Nat) (out : Store Byte) (k : Nat) :
    Except Fault (Store Byte × Nat) :=
  match xs with
  | [] => .ok (out, k)
  | x :: rest =>
    match extractColumn b src width x (List.range height) out k with
    | .error f => .error f
    | .ok (out', k') => extractScan b src width height rest out' k'

/-- EXTRACT: BAD_DIM before any buffer access; then the walk, RESULT_LEN <- k and the completion (R161). -/
def execExtract (sBit : Bool) (s : State) : Result :=
  if !s.imageFits then .next (complete .badDim s)
  else
    match extractScan (sourceBuf sBit) (s.mem.source sBit) s.width.toNat s.height.toNat (List.range s.width.toNat)
        s.mem.msgOut 0 with
    | .error f => .fault f
    | .ok (out, k) =>
      .next (complete .none { s with mem := { s.mem with msgOut := out }, resultLen := BitVec.ofNat 32 k })

/-- UNPACK: BYTE_R.BYTE <- unpack(PIX_A); BYTE_R.EMPTY follows it (R175). -/
def execUnpack (s : State) : Result := .next (complete .none { s with byteR := unpack s.pixA })

end Sys2Proof.Machine
end

