-- ==== Sys2Proof/Machine/Dispatch.lean ====
section
/-! DEFINITION. The meaning of each command: for SRESET its effect at the CMD write (R190), for every other its completion step (R186). -/

namespace Sys2Proof.Machine

def exec (i : Instr) (s : State) : Host.Outcome State Fault Refusal :=
  match i with
  | .nop => Sys2Proof.Machine.execNop s
  | .capchk => Sys2Proof.Machine.execCapchk s
  | .embed => Sys2Proof.Machine.execEmbed s
  | .extract sBit => Sys2Proof.Machine.execExtract sBit s
  | .pack => Sys2Proof.Machine.execPack s
  | .unpack => Sys2Proof.Machine.execUnpack s
  | .sreset => Sys2Proof.Machine.execSreset s

end Sys2Proof.Machine
end

