-- ==== Sys2Proof/Machine/Port.lean ====
section
/-! DEFINITION. The host port: one access (spec/20_memory.md R60 to R72), the effect of a write (spec/44_control.md R181 to R183, R189) and the
value of a read (R184, R192). -/

namespace Sys2Proof.Machine

/-- The legal form of a read: 32 bits at an offset (R68). -/
def Access.readWord (a : Word) : Access := { offset := a, bits := 32, dir := .read }

/-- The legal form of a write: 32 bits of data at an offset (R68). -/
def Access.writeWord (a d : Word) : Access := { offset := a, bits := 32, dir := .write d }

/-- The location of an access, or why there is none: the size, then the alignment, then the map (R68 to R70). -/
def mapAccess (nMax : Nat) (a : Access) : Except BusError Loc :=
  if a.bits ≠ 32 then .error .badSize
  else if a.offset.extractLsb' 0 2 ≠ 0#2 then .error .misaligned
  else
    match locAt nMax a.offset with
    | some l => .ok l
    | none => .error .unmapped

/-- A host write of a word to CMD: SRESET acts at once in either state; any other word is accepted while IDLE, and dropped
while BUSY (R181, R182). -/
def offerCommand (w : Word) (s : State) : Result :=
  if w = 0x0000000F#32 then execSreset s
  else
    match s.op with
    | .idle => .next (accept w s)
    | .busy => .next { s with bwe := true }

/-- A write to a command's input: taken while IDLE, dropped while BUSY, which only BWE records (R183, R189). -/
def writeInput (s : State) (written : State) : Result :=
  match s.op with
  | .idle => .next written
  | .busy => .next { s with bwe := true }

/-- The effect of a host write of `d` to a mapped location (R183, R189); the read-only locations are bus errors (R22(b), R71). -/
def writeLoc (l : Loc) (d : Word) (s : State) : Result :=
  match l with
  | .reg .ctrl => .next { s with irqEn := d[0] }
  | .reg .cmd => offerCommand d s
  | .reg .status => .next (clearStatus d s)
  | .reg .width => writeInput s { s with width := d.extractLsb' 0 16 }
  | .reg .height => writeInput s { s with height := d.extractLsb' 0 16 }
  | .reg .msgLen => writeInput s { s with msgLen := d }
  | .reg .pixA => writeInput s { s with pixA := d }
  | .reg .byteA => writeInput s { s with byteA := d.extractLsb' 0 8 }
  | .entry .imgIn i => writeInput s { s with mem := { s.mem with imgIn := s.mem.imgIn.write i d } }
  | .entry .msgIn i => writeInput s { s with mem := { s.mem with msgIn := s.mem.msgIn.write i (d.extractLsb' 0 8) } }
  | .reg .id => .fault (.busError .readOnly)
  | .reg .param => .fault (.busError .readOnly)
  | .reg .capacity => .fault (.busError .readOnly)
  | .reg .resultLen => .fault (.busError .readOnly)
  | .reg .pixR => .fault (.busError .readOnly)
  | .reg .byteR => .fault (.busError .readOnly)
  | .entry .imgOut _ => .fault (.busError .readOnly)
  | .entry .msgOut _ => .fault (.busError .readOnly)

/-- The value a register reads as, outside what R184 leaves open (R192). -/
def readReg (r : Reg) (s : State) : Word :=
  match r with
  | .id => 0x4B4B5355#32
  | .param => BitVec.ofNat 32 s.nMax.n
  | .ctrl => 0#31 ++ BitVec.ofBool s.irqEn
  | .cmd => 0x00000000#32
  | .status => s.statusWord s.capOk
  | .width => s.width.setWidth 32
  | .height => s.height.setWidth 32
  | .msgLen => s.msgLen
  | .capacity => s.capacityWord
  | .resultLen => s.resultLen
  | .pixA => s.pixA
  | .byteA => s.byteA.setWidth 32
  | .pixR => s.pixR
  | .byteR => s.byteRWord

/-- The locations whose whole word is unspecified to a read in the BUSY window (R184). -/
def Loc.isOutput (l : Loc) : Bool :=
  match l with
  | .reg .resultLen => true
  | .reg .pixR => true
  | .reg .byteR => true
  | .entry .imgOut _ => true
  | .entry .msgOut _ => true
  | .entry .imgIn _ => false
  | .entry .msgIn _ => false
  | .reg .id => false
  | .reg .param => false
  | .reg .ctrl => false
  | .reg .cmd => false
  | .reg .status => false
  | .reg .width => false
  | .reg .height => false
  | .reg .msgLen => false
  | .reg .capacity => false
  | .reg .pixA => false
  | .reg .byteA => false

/-- A read answered with a value that one free draw supplied (R184, U1, U2). -/
def answerDrawn (v : Word) (s : State) : Result := .next { s with answer := .data v, draws := s.draws + 1 }

/-- A read by the rules of R192; an unwritten entry faults (U3). -/
def readDefined (l : Loc) (s : State) : Result :=
  match l with
  | .reg r => .next { s with answer := .data (readReg r s) }
  | .entry b i =>
    match s.mem.entryWord b i with
    | some v => .next { s with answer := .data v }
    | none => .fault (.hostReadUnwritten b i)

/-- A host read of a mapped location. In the BUSY window an output reads as a free word and STATUS has a free CAP_OK bit;
every other read is R192's (R184, R192). -/
def readLoc (l : Loc) (s : State) : Result :=
  match s.op with
  | .idle => readDefined l s
  | .busy =>
    if l.isOutput then answerDrawn (Config.drawWord s.draws) s
    else if l = .reg .status then answerDrawn (s.statusWord (Config.drawBit s.draws)) s
    else readDefined l s

/-- One host access: mapped first, then done; a bus error faults and changes nothing (R70). A write is answered OKAY even
where it is dropped (R183). -/
def hostAccess (a : Access) (s : State) : Result :=
  match mapAccess s.nMax.n a with
  | .error e => .fault (.busError e)
  | .ok l =>
    match a.dir with
    | .read => readLoc l s
    | .write d => writeLoc l d { s with answer := .okay }

end Sys2Proof.Machine
end

