-- ==== Sys2Proof/Machine/HostProgram.lean ====
section
/-! DEFINITION. The host as the agent that runs a host program (spec/30_encoding.md R98), and the pseudo-instructions (R99). -/

namespace Sys2Proof.Machine

/-- Bits hi down to lo of a word's value, as a word: `t.F` (R98). -/
def Field.of (f : Field) (v : Word) : Word := (v >>> f.lo) &&& BitVec.ofNat 32 (2 ^ (f.hi + 1 - f.lo) - 1)

/-- The value of V, or the temporary that nothing has been read into (R98). -/
def Value.eval (v : Value) (s : State) : Except Refusal Word :=
  match v with
  | .lit w => .ok w
  | .temp t =>
    match s.temps.read t with
    | some w => .ok w
    | none => .error (.unsetTemp t)

/-- The position of `label:` in a program (R98). -/
def labelPosition (p : List HostLine) (l : Nat) : Option Nat := p.findIdx? fun h => h == .label l

/-- Does the check of an `expect` line hold (R98)? It looks at the state itself, with no access; in the BUSY window the output
registers and buffers are as before the command, whose effect is its completion's (R186; log entry 10). -/
def Expectation.holds (e : Expectation) (s : State) : Except Refusal Bool :=
  match e with
  | .irq v => .ok (s.irq == v)
  | .field t f v =>
    match s.temps.read t with
    | some w => .ok (f.of w == v)
    | none => .error (.unsetTemp t)
  | .reg r f v => .ok (f.of (readReg r s) == v)
  | .entry b i v => .ok (decide (i < s.nMax.n ∧ s.mem.entryWord b i = v))
  | .op o => .ok (s.op == o)
  | .pend w => .ok (s.pend == w)
  | .neg e =>
    match e.holds s with
    | .ok b => .ok (!b)
    | .error r => .error r
  | .both e e' =>
    match e.holds s, e'.holds s with
    | .ok b, .ok b' => .ok (b && b')
    | .error r, _ => .error r
    | .ok _, .error r => .error r

/-- After a read line: the data the port answered goes to the temporary (R98). -/
def storeTemp (t : Nat) (s : State) : State :=
  match s.answer with
  | .data v => { s with temps := s.temps.write t v }
  | .none => s
  | .okay => s
  | .error => s

/-- One line of a host program; the position is already past it (R98). -/
def runLine (h : HostLine) (s : State) : Result :=
  match h with
  | .wr loc v =>
    match v.eval s with
    | .error r => .refused r
    | .ok d => hostAccess (.writeWord loc.offset d) s
  | .rd loc t =>
    match hostAccess (.readWord loc.offset) s with
    | .next s' => .next (storeTemp t s')
    | .fault f => .fault f
    | .refused r => .refused r
  | .label _ => .next s
  | .ifGoto t f v l =>
    match s.temps.read t with
    | none => .refused (.unsetTemp t)
    | some w =>
      if f.of w = v then
        match labelPosition s.program l with
        | some k => .next { s with line := k }
        | none => .refused (.undefinedLabel l)
      else .next s
  | .expect e =>
    match e.holds s with
    | .error r => .refused r
    | .ok true => .next s
    | .ok false => .fault (.expectFailed e)

/-- The host executes the next line of its program; at the end it does nothing (R98, R264). -/
def hostLine (s : State) : Result :=
  match s.program[s.line]? with
  | some h => runLine h { s with line := s.line + 1 }
  | none => .next s

/-- The end of a run: the host has executed its last line and op = IDLE (R264). -/
def State.ended (s : State) : Bool := s.program.length ≤ s.line && s.op == .idle

/-- `cmd X` (R99). -/
def pseudoCmd (i : Instr) : List HostLine := [.wr (.reg .cmd) (.lit (encode i))]

/-- The field DONE of STATUS (R27). -/
def doneField : Field := { hi := 1, lo := 1 }

/-- `wait_done` with the fresh label `l` and the temporary `t` (R99). -/
def pseudoWaitDone (l t : Nat) : List HostLine :=
  [.label l, .rd (.reg .status) t, .ifGoto t doneField 0#32 l]

/-- `run X` (R99). -/
def pseudoRun (i : Instr) (l t : Nat) : List HostLine := pseudoCmd i ++ pseudoWaitDone l t

/-- `ack` (R99). -/
def pseudoAck : List HostLine := [.wr (.reg .status) (.lit 0x2#32)]

/-- `ackall` (R99). -/
def pseudoAckAll : List HostLine := [.wr (.reg .status) (.lit 0xA#32)]

/-- `load BUF, [v0, v1, ...]` from entry `i` on (R99). -/
def pseudoLoadFrom (b : Buf) (i : Nat) (vs : List Word) : List HostLine :=
  match vs with
  | [] => []
  | v :: rest => .wr (.entry b i) (.lit v) :: pseudoLoadFrom b (i + 1) rest

/-- `load BUF, [v0, v1, ...]` (R99). -/
def pseudoLoad (b : Buf) (vs : List Word) : List HostLine := pseudoLoadFrom b 0 vs

end Sys2Proof.Machine
end

