-- ==== Sys2Proof/Machine/Engine.lean ====
section
/-! DEFINITION. The engine's step (spec/44_control.md R185, R186) and the turn an event gives. -/

namespace Sys2Proof.Machine

/-- The completion of the command in PEND (R186). PEND is never SRESET, which has no case in R186 (log entry 8). -/
def completePending (s : State) : Result :=
  match decode s.pend with
  | .error _ => .next (complete .illegalCmd s)
  | .ok i => if i = .sreset then .fault .sresetPending else exec i s

/-- The engine's turn: the completion while op = BUSY; no step while op = IDLE, where nothing changes (R185, R228). -/
def engineTurn (s : State) : Result :=
  match s.op with
  | .busy => completePending s
  | .idle => .next s

/-- The turn an event gives (R5, R240). -/
def takeTurn (e : Event) (s : State) : Result :=
  match e with
  | .access a => hostAccess a s
  | .line => hostLine s
  | .engine => engineTurn s
  | .hwReset => .next (hardwareReset s)

/-- The turn taken when no event is scheduled: an accepted command completes (the fairness of R262), otherwise the host's
program goes on (log entry 2). -/
def defaultTurn (s : State) : Result :=
  match s.op with
  | .busy => engineTurn s
  | .idle => hostLine s

/-- A harness that goes on after the bus error of the next scheduled access: the access is answered ERROR and the block's
state is unchanged (R70, U7; log entry 5). -/
def State.continueAfterBusError (s : State) : State := { s with events := s.events.tail, answer := .error }

/-- The state in which the next step runs the command word `w`: for SRESET, whose effect is at the CMD write, that write is
next (R190); for any other word it is accepted and the engine's turn is next (R181, R186; log entry 12). -/
def placeCommand (w : Word) (s : State) : State :=
  if w = 0x0000000F#32 then
    { s with events := .access (.writeWord Reg.cmd.offset w) :: s.events }
  else { accept w s with events := .engine :: s.events }

end Sys2Proof.Machine
end

