-- ==== Sys2Proof/Machine/Step.lean ====
section
/-! DEFINITION. One step of the machine: one turn of the host, of the engine or of the reset input (spec/00_scope.md R5, spec/44_control.md R185). -/

namespace Sys2Proof.Machine

/-- The first scheduled event is taken off and has its turn; with none scheduled the default turn is taken. -/
def step (s : State) : Host.Outcome State Fault Refusal :=
  match s.events with
  | [] => defaultTurn s
  | e :: rest => takeTurn e { s with events := rest }

/-- The state in which the next step runs the table word `w` of `nbits` bits, every bit at or above `nbits` zero. -/
def State.withFetchWord (s : State) (nbits w : Nat) : State := placeCommand (BitVec.ofNat 32 (w % 2 ^ nbits)) s

end Sys2Proof.Machine
end

