-- ==== Sys2Proof/Safety.lean ====
section
/-! DEFINITION. What counts as a sound state and a safe command, in the terms the claims use: the invariant of the machine, what the host has
set up before EMBED and EXTRACT (spec/70_reset_and_hazards.md R250, R251), and the bytes an image holds (R162). -/

namespace Sys2Proof.Machine

/-- What every step keeps. -/
structure State.Inv (s : State) : Prop where
  /-- The buffers are in their canonical form: strictly rising indexes below N_MAX (R42, R43). -/
  memWf       : s.mem.wf s.nMax.n
  /-- DONE = 1 and BUSY = 1 never hold together (R29). -/
  doneIdle    : s.done = true → s.op = .idle
  /-- ERR reads 0 in the BUSY window (R181, R184). -/
  busyErr     : s.op = .busy → s.err = .none
  /-- PEND is never SRESET in the BUSY window (R181, R186). -/
  busyPend    : s.op = .busy → s.pend ≠ 0x0000000F#32
  /-- RESULT_LEN never exceeds N_MAX (R141, R164). -/
  resultBound : s.resultLen.toNat ≤ s.nMax.n
  /-- ERR = CAPACITY only beside CAP_OK = 0 (R141, R212). -/
  capacityErr : s.err = .capacity → s.capOk = false
  /-- MSG_OUT holds no byte 0x00 (R167). -/
  msgOutNoZero : ∀ c ∈ s.mem.msgOut, c.2 ≠ 0x00#8
  /-- The host's temporaries are in their canonical form. -/
  tempsSorted : s.temps.Pairwise (fun c d => c.1 < d.1)

/-- The registers and buffers a command reads: its whole input besides PEND (R94, spec/10_state.md §3.1). -/
structure State.SameInputs (s t : State) : Prop where
  nMax   : t.nMax = s.nMax
  width  : t.width = s.width
  height : t.height = s.height
  msgLen : t.msgLen = s.msgLen
  pixA   : t.pixA = s.pixA
  byteA  : t.byteA = s.byteA
  imgIn  : t.mem.imgIn = s.mem.imgIn
  msgIn  : t.mem.msgIn = s.mem.msgIn

/-- The registers and buffers only the engine and a reset write (R37, R40, R41, R71). -/
structure State.SameOutputs (s t : State) : Prop where
  resultLen : t.resultLen = s.resultLen
  pixR      : t.pixR = s.pixR
  byteR     : t.byteR = s.byteR
  imgOut    : t.mem.imgOut = s.mem.imgOut
  msgOut    : t.mem.msgOut = s.mem.msgOut

/-- What is not the block's own: the free values drawn, the port's last answer, what is scheduled, and the host's program,
position and temporaries. -/
structure State.SameOutside (s t : State) : Prop where
  draws   : t.draws = s.draws
  answer  : t.answer = s.answer
  events  : t.events = s.events
  program : t.program = s.program
  line    : t.line = s.line
  temps   : t.temps = s.temps

/-- EMBED may run to its end: the image fits, the message fits, and the host wrote every pixel and every message byte (R250). -/
structure State.EmbedReady (s : State) : Prop where
  imageFits   : s.width.toNat * s.height.toNat ≤ s.nMax.n
  messageFits : s.msgLen.toNat ≤ s.width.toNat * s.height.toNat
  pixels      : ∀ i < s.width.toNat * s.height.toNat, ∃ p, s.mem.imgIn.read i = some p
  bytes       : ∀ j < s.msgLen.toNat, ∃ b, s.mem.msgIn.read j = some b

/-- EXTRACT's scan reads pixel (x, y) of `src`: every pixel above it in its column holds a byte other than the empty marker (R161, R163). -/
def scanReaches (src : Store Word) (width x y : Nat) : Prop :=
  ∀ y' < y, ∃ p, src.read (y' * width + x) = some p ∧ unpack p ≠ 0x00#8

/-- EXTRACT may run to its end: the image fits, and every pixel its scan reads was written (R251). -/
structure State.ExtractReady (sBit : Bool) (s : State) : Prop where
  imageFits : s.width.toNat * s.height.toNat ≤ s.nMax.n
  pixels    : ∀ x < s.width.toNat, ∀ y < s.height.toNat, scanReaches (s.mem.source sBit) s.width.toNat x y →
    ∃ p, (s.mem.source sBit).read (y * s.width.toNat + x) = some p

/-- pre(x): the longest prefix of column x's bytes that contains no 0x00 (R162). An unwritten entry counts as a marker here;
where `ExtractReady` holds the scan never reaches one. -/
def columnBytes (src : Store Word) (width height x : Nat) : List Byte :=
  ((List.range height).map fun y => unpack ((src.read (y * width + x)).getD 0#32)).takeWhile fun b => b != 0x00#8

/-- pre(0) ++ pre(1) ++ ... ++ pre(W-1) (R162). -/
def imageBytes (src : Store Word) (width height : Nat) : List Byte :=
  (List.range width).flatMap (columnBytes src width height)

end Sys2Proof.Machine
end

