-- ==== Sys2Proof/Certificates/Slice0/Obligations.lean ====
section
/-! DEFINITION. The statements about the model, for the provers. Each follows the rule of spec/ that its docstring cites. -/

open Sys2Proof Sys2Proof.Machine

/-! ## Encoding -/

/-- R96: the eight legal words, each to its command, and every other word rejected. -/
def Obligations.DecodeOfEveryWord : Prop :=
  decode 0x00000000#32 = .ok .nop ∧ decode 0x00000001#32 = .ok .capchk ∧ decode 0x00000002#32 = .ok .embed ∧
  decode 0x00000003#32 = .ok (.extract false) ∧ decode 0x00000013#32 = .ok (.extract true) ∧
  decode 0x00000004#32 = .ok .pack ∧ decode 0x00000005#32 = .ok .unpack ∧ decode 0x0000000F#32 = .ok .sreset ∧
  ∀ w : Word, w ∉ [0x0#32, 0x1#32, 0x2#32, 0x3#32, 0x13#32, 0x4#32, 0x5#32, 0xF#32] → ∃ r, decode w = .error r

/-- R90: a word decodes to a command exactly when it is that command's encoding. -/
def Obligations.DecodeAndEncodeAgree : Prop :=
  ∀ (w : Word) (i : Instr), decode w = .ok i ↔ w = encode i

/-- R97: the illegal words are those with an RSV bit set, a reserved opcode 0x6 to 0xE, or S = 1 with an opcode other
than 0x3. -/
def Obligations.IllegalWordsByField : Prop :=
  ∀ w : Word, (∃ r, decode w = .error r) ↔
    w.extractLsb' 5 27 ≠ 0#27 ∨
    (0x6 ≤ (w.extractLsb' 0 4).toNat ∧ (w.extractLsb' 0 4).toNat ≤ 0xE) ∨
    (w[4] = true ∧ w.extractLsb' 0 4 ≠ 3#4)

/-! ## Reset -/

/-- R240, R241: asserting the reset input, from any state. -/
def Obligations.HardwareResetFromAnyState : Prop :=
  ∀ (s : State) (rest : List Event), ∃ t, step { s with events := .hwReset :: rest } = .next t ∧
    readReg .ctrl t = 0#32 ∧ readReg .status t = 0#32 ∧ readReg .width t = 0#32 ∧ readReg .height t = 0#32 ∧
    readReg .msgLen t = 0#32 ∧ readReg .resultLen t = 0#32 ∧ readReg .pixA t = 0#32 ∧ readReg .byteA t = 0#32 ∧
    readReg .pixR t = 0#32 ∧ readReg .byteR t = 0x00000100#32 ∧ readReg .capacity t = 0#32 ∧
    readReg .id t = 0x4B4B5355#32 ∧ readReg .param t = readReg .param s ∧ t.nMax = s.nMax ∧
    t.op = .idle ∧ t.pend = 0#32 ∧ t.irq = false ∧
    (∀ b i, t.mem.entryWord b i = none) ∧
    step { t with events := [.engine] } = .next { t with events := [] }

/-- R241: after hardware reset, from any state, every entry is unwritten, and a host read of one faults; so in the state of
`State.resetWith`. -/
def Obligations.BuffersUnwrittenAfterReset : Prop :=
  let unwritten (t : State) : Prop := ∀ (b : Buf) (i : Nat), t.mem.entryWord b i = none ∧
    (i < t.nMax.n → hostAccess (.readWord (b.base + BitVec.ofNat 32 (4 * i))) t = .fault (.hostReadUnwritten b i))
  (∀ (s t : State) (rest : List Event), step { s with events := .hwReset :: rest } = .next t → unwritten t) ∧
  ∀ d : Depth, unwritten (State.resetWith d)

/-- R242: right after reset, and SRESET against hardware reset (what an abort does to the buffers is R191, in
SresetResetsAndAborts). -/
def Obligations.SoftResetMatchesHardwareReset : Prop :=
  (∀ d : Depth, (State.resetWith d).op = .idle ∧ (State.resetWith d).irqEn = false ∧ (State.resetWith d).done = false ∧
    readReg .status (State.resetWith d) = 0x00000000#32 ∧
    step { State.resetWith d with events := [.engine] } = .next (State.resetWith d)) ∧
  ∀ s : State, ∃ m, exec .sreset s = .next { hardwareReset s with mem := m } ∧ (s.op = .idle → m = s.mem) ∧
    (s.op = .busy → m = abortedMem s)

/-- R243: the commands right after reset. -/
def Obligations.CommandsRightAfterReset : Prop :=
  ∀ d : Depth,
    (∃ t, exec .capchk (State.resetWith d) = .next t ∧ t.capOk = true) ∧
    (∃ t, exec .embed (State.resetWith d) = .next t ∧ t.err = .none ∧ t.mem = (State.resetWith d).mem ∧ t.resultLen = 0#32) ∧
    (∀ sBit, ∃ t, exec (.extract sBit) (State.resetWith d) = .next t ∧ t.err = .none ∧ t.mem = (State.resetWith d).mem ∧
      t.resultLen = 0#32) ∧
    (∃ t, exec .pack (State.resetWith d) = .next t ∧ t.pixR = 0#32) ∧
    (∃ t, exec .unpack (State.resetWith d) = .next t ∧ readReg .byteR t = 0x00000100#32)

/-! ## The port -/

/-- R69, R71 and the check order of R70: which accesses are bus errors, and for which reason; no other access is one. -/
def Obligations.BusErrorExactly : Prop :=
  ∀ (s : State) (a : Access) (e : BusError),
    let A := a.offset.toNat
    let unmapped := (0x38 ≤ A ∧ A < 0x01000000) ∨ 0x05000000 ≤ A ∨
      (0x01000000 ≤ A ∧ A < 0x05000000 ∧ s.nMax.n ≤ (A % 0x01000000) / 4)
    let readOnly := A ∈ [0x00, 0x04, 0x20, 0x24, 0x30, 0x34] ∨ (0x02000000 ≤ A ∧ A < 0x03000000) ∨
      (0x04000000 ≤ A ∧ A < 0x05000000)
    hostAccess a s = .fault (.busError e) ↔
      (e = .badSize ∧ a.bits ≠ 32) ∨
      (e = .misaligned ∧ a.bits = 32 ∧ A % 4 ≠ 0) ∨
      (e = .unmapped ∧ a.bits = 32 ∧ A % 4 = 0 ∧ unmapped) ∨
      (e = .readOnly ∧ a.bits = 32 ∧ A % 4 = 0 ∧ ¬ unmapped ∧ readOnly ∧ ∃ d, a.dir = .write d)

/-- R62: entry i is at base + 4i, and no other offset selects it. -/
def Obligations.WindowOffsetsSelectEntries : Prop :=
  Buf.imgIn.base = 0x01000000#32 ∧ Buf.imgOut.base = 0x02000000#32 ∧ Buf.msgIn.base = 0x03000000#32 ∧
  Buf.msgOut.base = 0x04000000#32 ∧
  ∀ (n : Depth) (b : Buf) (i : Nat) (a : Word),
    mapAccess n.n (.readWord a) = .ok (.entry b i) ↔ i < n.n ∧ a = b.base + BitVec.ofNat 32 (4 * i)

/-- Log entry 5 (R70): a harness that goes on after a bus error in the BUSY window finds the command in progress as it was. -/
def Obligations.BusErrorLeavesCommandInProgress : Prop :=
  ∀ (s : State) (a : Access) (rest : List Event) (e : BusError),
    s.op = .busy → step { s with events := .access a :: .engine :: rest } = .fault (.busError e) →
    step (State.continueAfterBusError { s with events := .access a :: .engine :: rest }) =
      completePending { s with events := rest, answer := .error }

/-- R192: the value every location reads as. -/
def Obligations.ReadsReturnTheirValues : Prop :=
  ∀ s : State,
    let reads (a v : Word) : Prop := hostAccess (.readWord a) s = .next { s with answer := .data v }
    let at' (base : Word) (i : Nat) : Word := base + BitVec.ofNat 32 (4 * i)
    let faults (b : Buf) (a : Word) (i : Nat) : Prop := hostAccess (.readWord a) s = .fault (.hostReadUnwritten b i)
    (reads 0x00#32 0x4B4B5355#32 ∧ reads 0x04#32 (BitVec.ofNat 32 s.nMax.n) ∧
      reads 0x08#32 (0#31 ++ BitVec.ofBool s.irqEn) ∧ reads 0x0C#32 0x00000000#32 ∧
      reads 0x14#32 (0#16 ++ s.width) ∧ reads 0x18#32 (0#16 ++ s.height) ∧ reads 0x1C#32 s.msgLen ∧
      reads 0x20#32 (BitVec.ofNat 32 (s.width.toNat * s.height.toNat)) ∧
      reads 0x28#32 s.pixA ∧ reads 0x2C#32 (0#24 ++ s.byteA)) ∧
    (∀ i < s.nMax.n,
      (∀ v, s.mem.imgIn.read i = some v → reads (at' 0x01000000#32 i) v) ∧
      (s.mem.imgIn.read i = none → faults .imgIn (at' 0x01000000#32 i) i) ∧
      (∀ v, s.mem.msgIn.read i = some v → reads (at' 0x03000000#32 i) (0#24 ++ v)) ∧
      (s.mem.msgIn.read i = none → faults .msgIn (at' 0x03000000#32 i) i)) ∧
    (s.op = .idle →
      reads 0x10#32 (0#20 ++ s.err.code ++ 0#4 ++ BitVec.ofBool s.bwe ++ BitVec.ofBool s.capOk ++ BitVec.ofBool s.done ++ 0#1) ∧
      reads 0x24#32 s.resultLen ∧ reads 0x30#32 s.pixR ∧
      reads 0x34#32 (0#23 ++ BitVec.ofBool (s.byteR == 0x00#8) ++ s.byteR) ∧
      ∀ i < s.nMax.n,
        (∀ v, s.mem.imgOut.read i = some v → reads (at' 0x02000000#32 i) v) ∧
        (s.mem.imgOut.read i = none → faults .imgOut (at' 0x02000000#32 i) i) ∧
        (∀ v, s.mem.msgOut.read i = some v → reads (at' 0x04000000#32 i) (0#24 ++ v)) ∧
        (s.mem.msgOut.read i = none → faults .msgOut (at' 0x04000000#32 i) i))

/-- R184: in the BUSY window the outputs read as a free word and STATUS has a free CAP_OK bit, for every value of the draw
counter; the other STATUS bits read BUSY = 1, DONE = 0, ERR = 0 and the current BWE. -/
def Obligations.OutputsReadFreeWhileBusy : Prop :=
  ∀ s : State, s.Inv → s.op = .busy →
    let free (a : Word) : Prop :=
      hostAccess (.readWord a) s = .next { s with answer := .data (Config.drawWord s.draws), draws := s.draws + 1 }
    free 0x24#32 ∧ free 0x30#32 ∧ free 0x34#32 ∧
    (∀ i < s.nMax.n, free (0x02000000#32 + BitVec.ofNat 32 (4 * i)) ∧ free (0x04000000#32 + BitVec.ofNat 32 (4 * i))) ∧
    hostAccess (.readWord 0x10#32) s = .next { s with
      answer := .data (0#28 ++ BitVec.ofBool s.bwe ++ BitVec.ofBool (Config.drawBit s.draws) ++ 0#1 ++ 1#1),
      draws := s.draws + 1 }

/-- R22(d), R72: a read changes nothing but what is the model's own, and outside the BUSY window a second read answers the
same. -/
def Obligations.ReadsHaveNoSideEffect : Prop :=
  ∀ (s t : State) (a : Access), a.dir = .read → hostAccess a s = .next t →
    t = { s with answer := t.answer, draws := t.draws } ∧ (s.op = .idle → hostAccess a t = .next t)

/-- R189: the effect of a write while op = IDLE. -/
def Obligations.IdleWritesTakeEffect : Prop :=
  ∀ (s : State) (d : Word), s.op = .idle →
    let writes (a : Word) (t : State) : Prop := hostAccess (.writeWord a d) s = .next { t with answer := .okay }
    let at' (base : Word) (i : Nat) : Word := base + BitVec.ofNat 32 (4 * i)
    let refuses (a : Word) : Prop := hostAccess (.writeWord a d) s = .fault (.busError .readOnly)
    writes 0x08#32 { s with irqEn := d[0] } ∧
    (d ≠ 0x0000000F#32 → writes 0x0C#32 { s with pend := d, op := .busy, done := false, err := .none }) ∧
    (d = 0x0000000F#32 → hostAccess (.writeWord 0x0C#32 d) s = exec .sreset { s with answer := .okay }) ∧
    writes 0x10#32 { s with done := if d[1] then false else s.done, bwe := if d[3] then false else s.bwe } ∧
    writes 0x14#32 { s with width := d.extractLsb' 0 16 } ∧ writes 0x18#32 { s with height := d.extractLsb' 0 16 } ∧
    writes 0x1C#32 { s with msgLen := d } ∧ writes 0x28#32 { s with pixA := d } ∧
    writes 0x2C#32 { s with byteA := d.extractLsb' 0 8 } ∧
    refuses 0x00#32 ∧ refuses 0x04#32 ∧ refuses 0x20#32 ∧ refuses 0x24#32 ∧ refuses 0x30#32 ∧ refuses 0x34#32 ∧
    (∀ (W H : Dim), (readReg .capacity { s with width := W, height := H }).toNat = W.toNat * H.toNat) ∧
    ∀ i < s.nMax.n,
      writes (at' 0x01000000#32 i) { s with mem := { s.mem with imgIn := s.mem.imgIn.write i d } } ∧
      writes (at' 0x03000000#32 i) { s with mem := { s.mem with msgIn := s.mem.msgIn.write i (d.extractLsb' 0 8) } } ∧
      refuses (at' 0x02000000#32 i) ∧ refuses (at' 0x04000000#32 i) ∧
      (s.mem.imgIn.write i d).read i = some d ∧ (s.mem.msgIn.write i (d.extractLsb' 0 8)).read i = some (d.extractLsb' 0 8)

/-- R257, R64, R22(a): while op = IDLE a read of a location just written returns the written value, its reserved bits 0, and
a write to an entry leaves every other entry of the four buffers as it was. -/
def Obligations.WriteThenReadReturnsValue : Prop :=
  ∀ (s : State) (d : Word), s.op = .idle →
    let thenReads (a v : Word) : Prop := ∃ t, hostAccess (.writeWord a d) s = .next t ∧
      hostAccess (.readWord a) t = .next { t with answer := .data v }
    thenReads 0x08#32 (d &&& 0x00000001#32) ∧ thenReads 0x14#32 (d &&& 0x0000FFFF#32) ∧
    thenReads 0x18#32 (d &&& 0x0000FFFF#32) ∧ thenReads 0x1C#32 d ∧ thenReads 0x28#32 d ∧
    thenReads 0x2C#32 (d &&& 0x000000FF#32) ∧
    ∀ i < s.nMax.n,
      thenReads (0x01000000#32 + BitVec.ofNat 32 (4 * i)) d ∧
      thenReads (0x03000000#32 + BitVec.ofNat 32 (4 * i)) (d &&& 0x000000FF#32) ∧
      (∀ t, hostAccess (.writeWord (0x01000000#32 + BitVec.ofNat 32 (4 * i)) d) s = .next t →
        (∀ j, j ≠ i → t.mem.imgIn.read j = s.mem.imgIn.read j) ∧ t.mem.msgIn = s.mem.msgIn ∧
        t.mem.imgOut = s.mem.imgOut ∧ t.mem.msgOut = s.mem.msgOut) ∧
      (∀ t, hostAccess (.writeWord (0x03000000#32 + BitVec.ofNat 32 (4 * i)) d) s = .next t →
        (∀ j, j ≠ i → t.mem.msgIn.read j = s.mem.msgIn.read j) ∧ t.mem.imgIn = s.mem.imgIn ∧
        t.mem.imgOut = s.mem.imgOut ∧ t.mem.msgOut = s.mem.msgOut)

/-- R183, R182: the effect of a write while op = BUSY. -/
def Obligations.BusyWritesDroppedOrTaken : Prop :=
  ∀ (s : State) (d : Word), s.op = .busy →
    let taken (a : Word) (t : State) : Prop := hostAccess (.writeWord a d) s = .next { t with answer := .okay }
    let dropped (a : Word) : Prop := hostAccess (.writeWord a d) s = .next { s with bwe := true, answer := .okay }
    let refuses (a : Word) : Prop := hostAccess (.writeWord a d) s = .fault (.busError .readOnly)
    let at' (base : Word) (i : Nat) : Word := base + BitVec.ofNat 32 (4 * i)
    taken 0x08#32 { s with irqEn := d[0] } ∧
    taken 0x10#32 { s with done := if d[1] then false else s.done, bwe := if d[3] then false else s.bwe } ∧
    (d ≠ 0x0000000F#32 → dropped 0x0C#32) ∧
    (d = 0x0000000F#32 → hostAccess (.writeWord 0x0C#32 d) s = exec .sreset { s with answer := .okay }) ∧
    dropped 0x14#32 ∧ dropped 0x18#32 ∧ dropped 0x1C#32 ∧ dropped 0x28#32 ∧ dropped 0x2C#32 ∧
    refuses 0x00#32 ∧ refuses 0x04#32 ∧ refuses 0x20#32 ∧ refuses 0x24#32 ∧ refuses 0x30#32 ∧ refuses 0x34#32 ∧
    (∀ (a : Access) (e : BusError),
      hostAccess a s = .fault (.busError e) ↔ hostAccess a { s with op := .idle } = .fault (.busError e)) ∧
    ∀ i < s.nMax.n, dropped (at' 0x01000000#32 i) ∧ dropped (at' 0x03000000#32 i) ∧
      refuses (at' 0x02000000#32 i) ∧ refuses (at' 0x04000000#32 i)

/-- R36: CAPACITY is W × H, without wrap, and 0 after reset. -/
def Obligations.CapacityIsExactProduct : Prop :=
  (∀ s : State, (readReg .capacity s).toNat = s.width.toNat * s.height.toNat ∧
    s.width.toNat * s.height.toNat ≤ 0xFFFE0001) ∧
  ∀ d : Depth, readReg .capacity (State.resetWith d) = 0x00000000#32

/-! ## Sequencing -/

/-- R181: acceptance. -/
def Obligations.AcceptanceLatchesTheWord : Prop :=
  ∀ (s : State) (w : Word) (rest : List Event), s.op = .idle →
    (w = 0x0000000F#32 → step { s with events := .access (.writeWord 0x0C#32 w) :: rest } =
      exec .sreset { s with events := rest, answer := .okay }) ∧
    (w ≠ 0x0000000F#32 → ∃ t, step { s with events := .access (.writeWord 0x0C#32 w) :: rest } = .next t ∧
      t = { s with events := rest, answer := .okay, pend := w, op := .busy, done := false, err := .none } ∧
      t.irq = false)

/-- R185, R186: the engine's turn. While op = IDLE it has no step; while op = BUSY it runs the decoded command or completes an
illegal word, by a scheduled turn and, with nothing scheduled, by the default one (log entry 2). PEND = SRESET has no case (log
entry 8). -/
def Obligations.EngineTurnRunsPendingCommand : Prop :=
  ∀ (s : State) (rest : List Event),
    (s.op = .idle → step { s with events := .engine :: rest } = .next { s with events := rest }) ∧
    (s.op = .busy →
      (∀ i, decode s.pend = .ok i → i ≠ .sreset →
        step { s with events := .engine :: rest } = exec i { s with events := rest } ∧
        step { s with events := [] } = exec i { s with events := [] }) ∧
      (∀ r, decode s.pend = .error r →
        step { s with events := .engine :: rest } =
          .next { s with events := rest, err := .illegalCmd, op := .idle, done := true } ∧
        step { s with events := [] } = .next { s with events := [], err := .illegalCmd, op := .idle, done := true }) ∧
      (s.pend = 0x0000000F#32 → step { s with events := .engine :: rest } = .fault .sresetPending))

/-- Log entry 12: the table's word, placed, is the command that the next step runs: SRESET by a CMD write, every other by
the engine's turn. -/
def Obligations.PlacedWordRunsNext : Prop :=
  ∀ (s : State) (i : Instr),
    step (s.withFetchWord 32 (encode i).toNat) =
      exec i (if i = .sreset then { s with answer := .okay } else accept (encode i) s)

/-- R213: an illegal word accepted while op = IDLE completes with ILLEGAL_CMD and has no other effect. -/
def Obligations.IllegalWordCompletes : Prop :=
  ∀ (s : State) (w : Word) (r : Illegal) (rest : List Event), s.op = .idle → decode w = .error r →
    ∃ t, step { s with events := .access (.writeWord 0x0C#32 w) :: .engine :: rest } = .next t ∧
      step t = .next { s with events := rest, answer := .okay, pend := w, err := .illegalCmd, op := .idle, done := true }

/-- R186, R29 over all commands but SRESET: a completion ends the window, sets DONE, raises irq exactly when IRQ_EN is 1, and
leaves the inputs, PEND, IRQ_EN, BWE and everything outside the block as they were. -/
def Obligations.EveryCompletionEndsTheWindow : Prop :=
  ∀ (i : Instr) (s t : State), i ≠ .sreset → exec i s = .next t →
    t.op = .idle ∧ t.done = true ∧ t.irq = s.irqEn ∧ t.irqEn = s.irqEn ∧ t.bwe = s.bwe ∧ t.pend = s.pend ∧
    State.SameInputs s t ∧ State.SameOutside s t

/-- R78: in the BUSY window no host access but SRESET changes the command in progress, what it reads or what it has
written. -/
def Obligations.WindowKeepsCommandInputs : Prop :=
  ∀ (s t : State) (a : Access) (rest : List Event), s.op = .busy → a ≠ .writeWord 0x0C#32 0x0000000F#32 →
    step { s with events := .access a :: rest } = .next t →
    State.SameInputs s t ∧ State.SameOutputs s t ∧ t.pend = s.pend ∧ t.op = .busy ∧ t.err = s.err ∧ t.capOk = s.capOk

/-- R185, R187: any finite number of host accesses other than SRESET may come before the engine's turn; they leave the command
in progress, which the engine's turn, scheduled after them, then completes on the inputs it was accepted with. -/
def Obligations.CompletionAfterAnyHostAccesses : Prop :=
  ∀ (as : List Access) (rest : List Event) (s t : State), s.op = .busy → (∀ a ∈ as, a ≠ .writeWord 0x0C#32 0x0000000F#32) →
    Host.Core.run Sys2Proof.core as.length { s with events := as.map .access ++ .engine :: rest } = .next t →
    t.op = .busy ∧ t.events = .engine :: rest ∧ t.pend = s.pend ∧ State.SameInputs s t ∧ State.SameOutputs s t ∧
    step t = completePending { t with events := rest }

/-- R31: BWE is set only by a write dropped in the BUSY window, and cleared only by a STATUS write with bit 3 set or by
SRESET. -/
def Obligations.BweStickyUntilCleared : Prop :=
  ∀ (s t : State) (a : Access), hostAccess a s = .next t →
    (s.bwe = true → t.bwe = false →
      (∃ d : Word, a = .writeWord 0x10#32 d ∧ d[3] = true) ∨ a = .writeWord 0x0C#32 0x0000000F#32) ∧
    (s.bwe = false → t.bwe = true →
      s.op = .busy ∧ (∃ d, a.dir = .write d) ∧ t = { s with bwe := true, answer := .okay })

/-- R30: no command but CAPCHK, EMBED and SRESET, and no access but SRESET, changes CAP_OK. -/
def Obligations.CapOkWrittenOnlyByChecks : Prop :=
  (∀ (i : Instr) (s t : State), exec i s = .next t → t.capOk ≠ s.capOk → i = .capchk ∨ i = .embed ∨ i = .sreset) ∧
  (∀ (a : Access) (s t : State), hostAccess a s = .next t → t.capOk ≠ s.capOk → a = .writeWord 0x0C#32 0x0000000F#32)

/-- R220: the interrupt output and what clears it. -/
def Obligations.InterruptFollowsDone : Prop :=
  (∀ s : State, s.irq = (s.done && s.irqEn)) ∧
  (∀ (i : Instr) (s t : State), i ≠ .sreset → exec i s = .next t → t.irq = s.irqEn) ∧
  (∀ (s t : State) (d : Word), hostAccess (.writeWord 0x10#32 d) s = .next t → d[1] = true → t.irq = false) ∧
  (∀ (s t : State) (w : Word), s.op = .idle → hostAccess (.writeWord 0x0C#32 w) s = .next t → t.irq = false) ∧
  (∀ s t : State, exec .sreset s = .next t → t.irq = false) ∧
  (∀ s : State, (hardwareReset s).irq = false) ∧
  (∀ (s t : State) (d : Word), hostAccess (.writeWord 0x08#32 d) s = .next t → d[0] = false → t.irq = false)

/-! ## Errors -/

/-- R216: an error completion, of a command or of an illegal word, changes nothing but STATUS. -/
def Obligations.FailedCommandChangesOnlyStatus : Prop :=
  (∀ (i : Instr) (s t : State), i ≠ .sreset → exec i s = .next t → t.err ≠ .none →
    t = { s with err := t.err, op := .idle, done := true, capOk := t.capOk } ∧ (i ≠ .embed → t.capOk = s.capOk)) ∧
  ∀ (s : State) (r : Illegal), decode s.pend = .error r →
    completePending s = .next { s with err := .illegalCmd, op := .idle, done := true }

/-- R211, R212, R214: which command reports which code, and when. -/
def Obligations.ErrorCodesByCommand : Prop :=
  ∀ (i : Instr) (s t : State), i ≠ .sreset → exec i s = .next t →
    (t.err = .badDim ↔ (i = .embed ∨ i = .extract false ∨ i = .extract true) ∧
      s.nMax.n < s.width.toNat * s.height.toNat) ∧
    (t.err = .capacity ↔ i = .embed ∧ s.width.toNat * s.height.toNat ≤ s.nMax.n ∧
      s.width.toNat * s.height.toNat < s.msgLen.toNat) ∧
    t.err ≠ .illegalCmd

/-- R211: EMBED and EXTRACT complete with BAD_DIM when W × H > N_MAX, whatever the buffers hold, and no other command does. -/
def Obligations.BadDimBeforeAnyAccess : Prop :=
  (∀ s : State, s.nMax.n < s.width.toNat * s.height.toNat →
    exec .embed s = .next { s with
      capOk := decide (s.msgLen.toNat ≤ s.width.toNat * s.height.toNat), err := .badDim, op := .idle, done := true } ∧
    ∀ sBit, exec (.extract sBit) s = .next { s with err := .badDim, op := .idle, done := true }) ∧
  ∀ (i : Instr) (s t : State), exec i s = .next t → t.err = .badDim → i = .embed ∨ ∃ sBit, i = .extract sBit

/-- R212 (and, for CAPACITY, R146): EMBED completes with CAPACITY when the image fits and the message does not; no other
command does, and CAPCHK reports the condition in CAP_OK. -/
def Obligations.EmbedCapacityErrorLeavesOutputs : Prop :=
  (∀ s : State, s.width.toNat * s.height.toNat ≤ s.nMax.n → s.width.toNat * s.height.toNat < s.msgLen.toNat →
    exec .embed s = .next { s with capOk := false, err := .capacity, op := .idle, done := true } ∧
    exec .capchk s = .next { s with capOk := false, err := .none, op := .idle, done := true }) ∧
  ∀ (i : Instr) (s t : State), exec i s = .next t → t.err = .capacity → i = .embed

/-! ## The commands -/

/-- R188: NOP. -/
def Obligations.NopOnlyCompletes : Prop :=
  decode 0x00000000#32 = .ok .nop ∧ ∀ s : State, exec .nop s = .next { s with err := .none, op := .idle, done := true }

/-- R131, R132, R133: CAPCHK, its boundary, and CAP_OK against what CAPACITY reads. -/
def Obligations.CapchkSetsCapOk : Prop :=
  decode 0x00000001#32 = .ok .capchk ∧ ∀ s : State, ∃ t, exec .capchk s = .next t ∧
    t = { s with
      capOk := decide (s.msgLen.toNat ≤ s.width.toNat * s.height.toNat), err := .none, op := .idle, done := true } ∧
    t.capOk = decide (s.msgLen.toNat ≤ (readReg .capacity s).toNat) ∧
    (s.msgLen.toNat = s.width.toNat * s.height.toNat → t.capOk = true) ∧
    (s.msgLen.toNat = s.width.toNat * s.height.toNat + 1 → t.capOk = false)

/-- R150, in the closed form of R115: PACK. -/
def Obligations.PackWritesPixR : Prop :=
  decode 0x00000004#32 = .ok .pack ∧ ∀ s : State, exec .pack s = .next { s with
    pixR := (s.pixA &&& 0xFCFCFCFC#32) ||| (0#6 ++ s.byteA.extractLsb' 6 2 ++ 0#6 ++ s.byteA.extractLsb' 4 2 ++
      0#6 ++ s.byteA.extractLsb' 2 2 ++ 0#6 ++ s.byteA.extractLsb' 0 2),
    err := .none, op := .idle, done := true }

/-- R175, in the closed form of R116: UNPACK, and what BYTE_R then reads. -/
def Obligations.UnpackWritesByteR : Prop :=
  decode 0x00000005#32 = .ok .unpack ∧ ∀ s : State, ∃ t, exec .unpack s = .next t ∧
    t = { s with
      byteR := s.pixA.extractLsb' 24 2 ++ s.pixA.extractLsb' 16 2 ++ s.pixA.extractLsb' 8 2 ++ s.pixA.extractLsb' 0 2,
      err := .none, op := .idle, done := true } ∧
    readReg .byteR t = 0#23 ++ BitVec.ofBool (t.byteR == 0x00#8) ++ t.byteR ∧
    (s.pixA &&& 0x03030303#32 = 0#32 → readReg .byteR t = 0x00000100#32)

/-- R117: the laws of the pair. -/
def Obligations.PackUnpackLaws : Prop :=
  ∀ (P : Word) (B B1 B2 : Byte), unpack (pack P B) = B ∧ pack P (unpack P) = P ∧
    pack P B &&& 0xFCFCFCFC#32 = P &&& 0xFCFCFCFC#32 ∧ pack (pack P B1) B2 = pack P B2

/-- R119: lane i of pack depends only on Ci and group i, and bits 2i+1:2i of unpack only on Ci; the two fields of a lane do not
mix. -/
def Obligations.LanesAreIndependent : Prop :=
  ∀ (P P' : Word) (B B' : Byte) (i : Nat), i < 4 →
    (P.extractLsb' (8 * i) 8 = P'.extractLsb' (8 * i) 8 →
      (B.extractLsb' (2 * i) 2 = B'.extractLsb' (2 * i) 2 →
        (pack P B).extractLsb' (8 * i) 8 = (pack P' B').extractLsb' (8 * i) 8) ∧
      (unpack P).extractLsb' (2 * i) 2 = (unpack P').extractLsb' (2 * i) 2) ∧
    (pack P B).extractLsb' (8 * i) 2 = B.extractLsb' (2 * i) 2 ∧
    (pack P B).extractLsb' (8 * i + 2) 6 = P.extractLsb' (8 * i + 2) 6

/-- R113: the channel update, and the source's formula for it, with no carry. -/
def Obligations.ChannelUpdateEqualsSourceFormula : Prop :=
  ∀ (c : Byte) (g : Pair), setlsb2 c g = (c &&& 0xFC#8) ||| g.setWidth 8 ∧
    (setlsb2 c g).toNat = c.toNat - c.toNat % 4 + g.toNat ∧ c.toNat - c.toNat % 4 + g.toNat < 256

/-- R120, R118: the empty marker of a pixel is four LSB fields of 0, and storing 0 makes it. -/
def Obligations.EmptyMarkerIsZeroLsbFields : Prop :=
  (∀ B : Byte, empty B = true ↔ B = 0x00#8) ∧
  (∀ P : Word, empty (unpack P) = true ↔ P &&& 0x03030303#32 = 0#32) ∧
  (∀ P : Word, pack P 0x00#8 = P &&& 0xFCFCFCFC#32 ∧ unpack (pack P 0x00#8) = 0x00#8)

/-- R47 and the last sentence of R142: the scan visits (j div H, j mod H) as its j-th pixel. -/
def Obligations.ScanVisitsColumnMajor : Prop :=
  ∀ W H : Nat, (scan W H).length = W * H ∧ ∀ j < W * H, (scan W H)[j]? = some (j / H, j % H)

/-- R67: for an image that fits, storage indexes are below N_MAX, and each entry below W × H holds exactly one pixel. -/
def Obligations.StorageIndexIsBijective : Prop :=
  ∀ W H N : Nat, W * H ≤ N →
    (∀ x y, x < W → y < H → idx W x y ≤ (H - 1) * W + (W - 1) ∧ (H - 1) * W + (W - 1) = W * H - 1 ∧ W * H - 1 < N) ∧
    (∀ x y x' y', x < W → y < H → x' < W → y' < H → idx W x y = idx W x' y' → x = x' ∧ y = y') ∧
    (∀ i < W * H, ∃ x y, x < W ∧ y < H ∧ idx W x y = i)

/-- R142 with R141: a successful EMBED writes every pixel of IMG_OUT by its scan position, and changes nothing else but
RESULT_LEN, CAP_OK and the completion record. -/
def Obligations.EmbedWritesClosedForm : Prop :=
  ∀ s : State, s.EmbedReady → ∃ out : Store Word,
    exec .embed s = .next { s with
      capOk := true, err := .none, op := .idle, done := true, resultLen := s.msgLen, mem := { s.mem with imgOut := out } } ∧
    (∀ x < s.width.toNat, ∀ y < s.height.toNat, ∃ p b,
      s.mem.imgIn.read (y * s.width.toNat + x) = some p ∧
      (if x * s.height.toNat + y < s.msgLen.toNat then s.mem.msgIn.read (x * s.height.toNat + y) = some b else b = 0x00#8) ∧
      out.read (y * s.width.toNat + x) = some (pack p b)) ∧
    ∀ i, s.width.toNat * s.height.toNat ≤ i → out.read i = s.mem.imgOut.read i

/-- R145, R144: colour preservation, and the empty marker after the message. -/
def Obligations.EmbedPreservesColourAndMarksRest : Prop :=
  ∀ s t : State, exec .embed s = .next t → t.err = .none →
    (∀ i < s.width.toNat * s.height.toNat, ∃ p q, s.mem.imgIn.read i = some p ∧ t.mem.imgOut.read i = some q ∧
      q &&& 0xFCFCFCFC#32 = p &&& 0xFCFCFCFC#32) ∧
    (∀ x < s.width.toNat, ∀ y < s.height.toNat, s.msgLen.toNat ≤ x * s.height.toNat + y →
      ∃ q, t.mem.imgOut.read (y * s.width.toNat + x) = some q ∧ empty (unpack q) = true)

/-- R143: the message bytes at and above L are never read: EMBED does the same whatever they are, written or not. -/
def Obligations.EmbedIgnoresBytesBeyondLength : Prop :=
  ∀ (s : State) (other : Store Byte), (∀ j < s.msgLen.toNat, other.read j = s.mem.msgIn.read j) →
    (∀ f, exec .embed s = .fault f → exec .embed { s with mem := { s.mem with msgIn := other } } = .fault f) ∧
    (∀ t, exec .embed s = .next t →
      exec .embed { s with mem := { s.mem with msgIn := other } } = .next { t with mem := { t.mem with msgIn := other } })

/-- U4 with R148: EMBED that reaches the walk faults exactly when a pixel of the image or a byte of the message is
unwritten, and names an unwritten entry. -/
def Obligations.EmbedFaultsOnUnwrittenInput : Prop :=
  ∀ s : State, s.width.toNat * s.height.toNat ≤ s.nMax.n → s.msgLen.toNat ≤ s.width.toNat * s.height.toNat →
    ¬ s.EmbedReady →
    (∃ i, exec .embed s = .fault (.engineReadUnwritten .imgIn i) ∧ i < s.width.toNat * s.height.toNat ∧
      s.mem.imgIn.read i = none) ∨
    (∃ j, exec .embed s = .fault (.engineReadUnwritten .msgIn j) ∧ j < s.msgLen.toNat ∧ s.mem.msgIn.read j = none)

/-- R162 with R161: a successful EXTRACT writes the concatenation of the columns' zero-free prefixes, and changes nothing else
but RESULT_LEN and the completion record. -/
def Obligations.ExtractWritesClosedForm : Prop :=
  ∀ (sBit : Bool) (s : State), s.ExtractReady sBit →
    let bytes := imageBytes (s.mem.source sBit) s.width.toNat s.height.toNat
    ∃ out : Store Byte,
      exec (.extract sBit) s = .next { s with
        err := .none, op := .idle, done := true, resultLen := BitVec.ofNat 32 bytes.length,
        mem := { s.mem with msgOut := out } } ∧
      bytes.length ≤ s.width.toNat * s.height.toNat ∧
      (∀ k (h : k < bytes.length), out.read k = some bytes[k]) ∧
      ∀ k, bytes.length ≤ k → out.read k = s.mem.msgOut.read k

/-- R164, R167, R168: the bound on N, no byte 0x00, and what EXTRACT leaves. -/
def Obligations.ExtractBoundedAndZeroFree : Prop :=
  ∀ (sBit : Bool) (s t : State), exec (.extract sBit) s = .next t → t.err = .none →
    t.resultLen.toNat ≤ s.width.toNat * s.height.toNat ∧ s.width.toNat * s.height.toNat ≤ s.nMax.n ∧
    (∀ k < t.resultLen.toNat, ∃ b, t.mem.msgOut.read k = some b ∧ b ≠ 0x00#8) ∧
    (∀ k, t.resultLen.toNat ≤ k → t.mem.msgOut.read k = s.mem.msgOut.read k) ∧
    t.mem.imgIn = s.mem.imgIn ∧ t.mem.imgOut = s.mem.imgOut ∧ t.mem.msgIn = s.mem.msgIn ∧
    t.capOk = s.capOk ∧ t.pixR = s.pixR ∧ t.byteR = s.byteR

/-- U4 with R170, R163: EXTRACT of an image that fits faults exactly when its scan reaches an unwritten pixel, and names it. -/
def Obligations.ExtractFaultsOnUnwrittenPixel : Prop :=
  ∀ (sBit : Bool) (s : State), s.width.toNat * s.height.toNat ≤ s.nMax.n → ¬ s.ExtractReady sBit →
    ∃ x y, x < s.width.toNat ∧ y < s.height.toNat ∧ scanReaches (s.mem.source sBit) s.width.toNat x y ∧
      (s.mem.source sBit).read (y * s.width.toNat + x) = none ∧
      exec (.extract sBit) s =
        .fault (.engineReadUnwritten (if sBit then .imgOut else .imgIn) (y * s.width.toNat + x))

/-- R165: the round trip of a zero-free message, by S = 1, and by S = 0 after the host copies the image. -/
def Obligations.RoundTripOfZeroFreeMessage : Prop :=
  ∀ s : State, s.EmbedReady → (∀ j < s.msgLen.toNat, s.mem.msgIn.read j ≠ some 0x00#8) →
    ∃ t, exec .embed s = .next t ∧ t.err = .none ∧
      ∀ (sBit : Bool) (t' : State), t'.nMax = s.nMax → t'.width = s.width → t'.height = s.height →
        (∀ i < s.width.toNat * s.height.toNat, (t'.mem.source sBit).read i = t.mem.imgOut.read i) →
        ∃ u, exec (.extract sBit) t' = .next u ∧ u.err = .none ∧ u.resultLen = s.msgLen ∧
          ∀ j < s.msgLen.toNat, u.mem.msgOut.read j = s.mem.msgIn.read j

/-- R166: EXTRACT after EMBED of any message gives the zero-free prefixes of the columns' slices of it; where its first zero
byte is at position j the output begins with M[0..j), and it is exactly M[0..j) when no column after j's begins with a
nonzero byte of M, longer otherwise. -/
def Obligations.ZeroByteEndsItsColumnOnly : Prop :=
  ∀ s : State, s.EmbedReady →
    let H := s.height.toNat
    let L := s.msgLen.toNat
    let slicePrefix (x : Nat) : List Byte :=
      ((List.range H).map fun y => if x * H + y < L then (s.mem.msgIn.read (x * H + y)).getD 0x00#8 else 0x00#8).takeWhile
        fun b => b != 0x00#8
    let bytes := (List.range s.width.toNat).flatMap slicePrefix
    ∃ t u, exec .embed s = .next t ∧ exec (.extract true) t = .next u ∧ u.err = .none ∧
      u.resultLen.toNat = bytes.length ∧ (∀ k (h : k < bytes.length), u.mem.msgOut.read k = some bytes[k]) ∧
      ∀ j < L, s.mem.msgIn.read j = some 0x00#8 → (∀ i < j, s.mem.msgIn.read i ≠ some 0x00#8) →
        j ≤ u.resultLen.toNat ∧ (∀ i < j, u.mem.msgOut.read i = s.mem.msgIn.read i) ∧
        ((∀ x, j / H < x → x * H < L → s.mem.msgIn.read (x * H) = some 0x00#8) → u.resultLen.toNat = j) ∧
        (∀ x, j / H < x → x * H < L → s.mem.msgIn.read (x * H) ≠ some 0x00#8 → j < u.resultLen.toNat)

/-- R190, R191: SRESET, in either state of op: every register at its reset value; the buffers kept but for the entries that a
command it aborts could have written. -/
def Obligations.SresetResetsAndAborts : Prop :=
  decode 0x0000000F#32 = .ok .sreset ∧ ∀ s : State,
    let n := s.width.toNat * s.height.toNat
    hostAccess (.writeWord 0x0C#32 0x0000000F#32) s = exec .sreset { s with answer := .okay } ∧
    ∃ t, exec .sreset s = .next t ∧
      t = { s with
        op := .idle, pend := 0#32, irqEn := false, done := false, capOk := false, bwe := false, err := .none,
        width := 0#16, height := 0#16, msgLen := 0#32, resultLen := 0#32, pixA := 0#32, byteA := 0#8, pixR := 0#32,
        byteR := 0#8, mem := t.mem } ∧
      readReg .byteR t = 0x00000100#32 ∧ readReg .capacity t = 0#32 ∧ t.irq = false ∧
      (s.op = .idle → t.mem = s.mem) ∧
      (s.op = .busy →
        step { t with events := [.engine] } = .next { t with events := [] } ∧
        t.mem.imgIn = s.mem.imgIn ∧ t.mem.msgIn = s.mem.msgIn ∧
        (s.pend = 0x2#32 ∧ n ≤ s.nMax.n → t.mem.msgOut = s.mem.msgOut ∧ (∀ i < n, t.mem.imgOut.read i = none) ∧
          ∀ i, n ≤ i → t.mem.imgOut.read i = s.mem.imgOut.read i) ∧
        ((s.pend = 0x3#32 ∨ s.pend = 0x13#32) ∧ n ≤ s.nMax.n → t.mem.imgOut = s.mem.imgOut ∧
          (∀ i < n, t.mem.msgOut.read i = none) ∧ ∀ i, n ≤ i → t.mem.msgOut.read i = s.mem.msgOut.read i) ∧
        (s.nMax.n < n ∨ s.pend ∉ [0x2#32, 0x3#32, 0x13#32] → t.mem = s.mem))

/-- R8 with spec/10_state.md §3.1: a command's results are a function of the inputs; no flag, no output register and nothing
outside the block is one. -/
def Obligations.ResultsDependOnInputsOnly : Prop :=
  ∀ (i : Instr) (s s' t : State), i ≠ .sreset → State.SameInputs s s' → s'.mem.imgOut = s.mem.imgOut →
    s'.mem.msgOut = s.mem.msgOut → exec i s = .next t →
    ∃ t', exec i s' = .next t' ∧ t'.err = t.err ∧ t'.mem = t.mem ∧
      (i = .capchk ∨ i = .embed → t'.capOk = t.capOk) ∧ (i = .pack → t'.pixR = t.pixR) ∧
      (i = .unpack → t'.byteR = t.byteR) ∧
      (t.err = .none ∧ (i = .embed ∨ i = .extract false ∨ i = .extract true) → t'.resultLen = t.resultLen)

/-- R37: RESULT_LEN is changed by no command but a successful EMBED or EXTRACT and SRESET, by no host access but SRESET's, and by
no turn of the engine but such a command's completion; SRESET and the reset input set it to 0. -/
def Obligations.ResultLenWrittenOnlyBySuccess : Prop :=
  let writer (i : Instr) : Prop := i = .embed ∨ i = .extract false ∨ i = .extract true
  (∀ (i : Instr) (s t : State), exec i s = .next t →
    (i = .embed ∧ t.err = .none → t.resultLen = s.msgLen) ∧
    (i = .sreset → t.resultLen = 0#32) ∧
    (t.resultLen ≠ s.resultLen → i = .sreset ∨ (t.err = .none ∧ writer i))) ∧
  (∀ (a : Access) (s t : State), hostAccess a s = .next t → t.resultLen ≠ s.resultLen →
    a = .writeWord 0x0C#32 0x0000000F#32) ∧
  (∀ s t : State, engineTurn s = .next t → t.resultLen ≠ s.resultLen →
    s.op = .busy ∧ t.err = .none ∧ ∃ i, decode s.pend = .ok i ∧ writer i) ∧
  ∀ s : State, (hardwareReset s).resultLen = 0#32

/-! ## Invariants -/

/-- The invariant of Safety.lean holds right after reset, for every N_MAX. -/
def Obligations.InvariantAtReset : Prop :=
  (∀ d : Depth, (State.resetWith d).Inv) ∧ State.reset.Inv

/-- Every step keeps the invariant: canonical buffers below N_MAX, DONE and BUSY exclusive, no ERR and no SRESET in the BUSY
window, RESULT_LEN at most N_MAX, CAPACITY only beside CAP_OK = 0, no byte 0x00 in MSG_OUT (R29, R42, R164, R167, R186). -/
def Obligations.StepKeepsInvariant : Prop :=
  ∀ s t : State, s.Inv → step s = .next t → t.Inv

/-- R186, log entry 8: where the invariant holds, the engine never finds SRESET in PEND. -/
def Obligations.SresetNeverPending : Prop :=
  ∀ s : State, s.Inv → step s ≠ .fault .sresetPending

/-- R24, R6: PARAM reads N_MAX, 1 to 2^22, which no step changes. -/
def Obligations.DepthIsConstant : Prop :=
  ∀ s : State, (readReg .param s).toNat = s.nMax.n ∧ 1 ≤ s.nMax.n ∧ s.nMax.n ≤ 4194304 ∧
    ∀ t, step s = .next t → t.nMax = s.nMax ∧ readReg .param t = readReg .param s

/-! ## The host -/

/-- R98, R264: a turn of the host executes the line at its position and moves past it; past its last line it does nothing.
That it is also the default turn of an idle block is the model's choice (log entry 2). -/
def Obligations.HostTurnExecutesNextLine : Prop :=
  ∀ (s : State) (rest : List Event),
    (∀ h, s.program[s.line]? = some h →
      step { s with events := .line :: rest } = runLine h { s with events := rest, line := s.line + 1 } ∧
      (s.op = .idle → step { s with events := [] } = runLine h { s with events := [], line := s.line + 1 })) ∧
    (s.program.length ≤ s.line → step { s with events := .line :: rest } = .next { s with events := rest })

/-- R98: what a line of a host program does (log entries 10, 11 for the temporaries, fields and labels). Of `expect` R98 says only
'a check of the state the rules give': which checks there are, and that one that does not hold is a fault of the run, is the
model's choice (log entry 10). -/
def Obligations.HostLinesMakeOneAccess : Prop :=
  ∀ s : State,
    (∀ loc v, runLine (.wr loc (.lit v)) s = hostAccess (.writeWord loc.offset v) s) ∧
    (∀ loc t v, s.temps.read t = some v → runLine (.wr loc (.temp t)) s = hostAccess (.writeWord loc.offset v) s) ∧
    (∀ loc t u v, hostAccess (.readWord loc.offset) s = .next u → u.answer = .data v →
      runLine (.rd loc t) s = .next { u with temps := u.temps.write t v }) ∧
    (∀ l, runLine (.label l) s = .next s) ∧
    (∀ t f v l w k, s.temps.read t = some w → labelPosition s.program l = some k →
      runLine (.ifGoto t f v l) s = .next (if f.of w = v then { s with line := k } else s)) ∧
    (∀ e : Expectation, e.holds s = .ok true → runLine (.expect e) s = .next s) ∧
    (∀ e : Expectation, e.holds s = .ok false → runLine (.expect e) s = .fault (.expectFailed e)) ∧
    (∀ v, Expectation.holds (.irq v) s = .ok (decide (s.irq = v))) ∧
    (∀ t f v w, s.temps.read t = some w → Expectation.holds (.field t f v) s = .ok (decide (f.of w = v))) ∧
    (∀ r f v, Expectation.holds (.reg r f v) s = .ok (decide (f.of (readReg r s) = v))) ∧
    (∀ b i v, Expectation.holds (.entry b i v) s = .ok (decide (i < s.nMax.n ∧ s.mem.entryWord b i = v))) ∧
    (∀ o, Expectation.holds (.op o) s = .ok (decide (s.op = o))) ∧
    (∀ w, Expectation.holds (.pend w) s = .ok (decide (s.pend = w))) ∧
    (∀ (e : Expectation) b, e.holds s = .ok b → (Expectation.neg e).holds s = .ok (!b)) ∧
    (∀ (e e' : Expectation) b b', e.holds s = .ok b → e'.holds s = .ok b' → (Expectation.both e e').holds s = .ok (b && b'))

/-- R99: `wait_done`, with its fresh label: from its first line, three steps go past it when DONE = 1 and back to its label when
op = IDLE and DONE = 0; the block is as before. The steps are the default turns of log entry 2. -/
def Obligations.WaitDoneLoopsUntilDone : Prop :=
  ∀ (s : State) (before after : List HostLine) (l t : Nat), s.op = .idle → s.events = [] →
    s.program = before ++ pseudoWaitDone l t ++ after → s.line = before.length → HostLine.label l ∉ before →
    ∃ u, Host.Core.run Sys2Proof.core 3 s = .next u ∧
      u = { s with line := u.line, answer := u.answer, temps := u.temps } ∧
      u.line = if s.done then before.length + 3 else before.length
end

