-- ==== Sys2Proof/Laws/Decode.lean ====
section
/-! SUPPORT. The inversion of the decoder (R96). -/

namespace Sys2Proof

/-- The one word a decoded command came from. -/
theorem decode_ok_cases {w : Word} {i : Instr} (h : decode w = .ok i) :
    (w = 0x0#32 ∧ i = .nop) ∨ (w = 0x1#32 ∧ i = .capchk) ∨ (w = 0x2#32 ∧ i = .embed) ∨
    (w = 0x3#32 ∧ i = .extract false) ∨ (w = 0x13#32 ∧ i = .extract true) ∨ (w = 0x4#32 ∧ i = .pack) ∨
    (w = 0x5#32 ∧ i = .unpack) ∨ (w = 0xF#32 ∧ i = .sreset) := by
  unfold decode at h
  split_ifs at h <;> simp_all

/-- A word decodes to SRESET only if it is 0x0000000F. -/
theorem decode_sreset {w : Word} (h : decode w = .ok .sreset) : w = 0xF#32 := by
  rcases decode_ok_cases h with h | h | h | h | h | h | h | h <;> simp_all

theorem decode_embed {w : Word} (h : decode w = .ok .embed) : w = 0x2#32 := by
  rcases decode_ok_cases h with h | h | h | h | h | h | h | h <;> simp_all

theorem decode_extract {w : Word} {b : Bool} (h : decode w = .ok (.extract b)) : w = 0x3#32 ∨ w = 0x13#32 := by
  rcases decode_ok_cases h with h | h | h | h | h | h | h | h <;> simp_all

end Sys2Proof
end

