-- ==== Sys2Proof/Laws/Memory.lean ====
section
/-! SUPPORT. The laws of a buffer: read after write, what clearing unwrites, and that every operation keeps the canonical form. -/

namespace Sys2Proof.Machine

variable {α : Type}

@[simp] theorem Store.read_nil (i : Nat) : Store.read ([] : Store α) i = none := rfl

@[simp] theorem Store.read_write_same (st : Store α) (i : Nat) (v : α) : (st.write i v).read i = some v := by
  induction st with
  | nil => simp [Store.write, Store.read]
  | cons c rest ih =>
    obtain ⟨j, w⟩ := c
    simp only [Store.write]
    split_ifs with h1 h2
    · simp [Store.read]
    · simp [Store.read]
    · simp [Store.read, Ne.symm h2, ih]

@[simp] theorem Store.read_write_other (st : Store α) {i j : Nat} (v : α) (h : j ≠ i) :
    (st.write i v).read j = st.read j := by
  induction st with
  | nil => simp [Store.write, Store.read, h.symm]
  | cons c rest ih =>
    obtain ⟨k, w⟩ := c
    simp only [Store.write]
    split_ifs with h1 h2
    · simp [Store.read, h.symm]
    · subst h2; simp [Store.read, h.symm]
    · simp [Store.read, ih]

theorem Store.read_write (st : Store α) (i j : Nat) (v : α) :
    (st.write i v).read j = if j = i then some v else st.read j := by
  by_cases h : j = i
  · subst h; simp
  · simp [h]

/-- Clearing below `n` unwrites exactly the entries below `n`. -/
theorem Store.read_clearBelow (st : Store α) (n i : Nat) :
    (st.clearBelow n).read i = if i < n then none else st.read i := by
  unfold Store.clearBelow
  induction st with
  | nil => simp
  | cons c rest ih =>
    obtain ⟨j, w⟩ := c
    by_cases hj : n ≤ j
    · rw [List.filter_cons_of_pos (by simpa using hj)]
      simp only [Store.read, ih]
      split_ifs with h1 h2 <;> first | rfl | omega
    · rw [List.filter_cons_of_neg (by simpa using hj), ih]
      simp only [Store.read]
      split_ifs with h1 h2 <;> first | rfl | omega

/-- What a write leaves in the list: the new entry and old ones. -/
theorem Store.mem_write {st : Store α} {i : Nat} {v : α} {c : Nat × α} (h : c ∈ st.write i v) : c = (i, v) ∨ c ∈ st := by
  induction st with
  | nil => exact .inl (by simpa [Store.write] using h)
  | cons d rest ih =>
    obtain ⟨j, w⟩ := d
    simp only [Store.write] at h
    split_ifs at h with h1 h2
    · simpa using h
    · rcases List.mem_cons.1 h with h | h
      · exact .inl h
      · exact .inr (List.mem_cons_of_mem _ h)
    · rcases List.mem_cons.1 h with h | h
      · exact .inr (by simp [h])
      · exact (ih h).imp_right (List.mem_cons_of_mem _)

theorem Store.sorted_write {st : Store α} (i : Nat) (v : α) (h : st.Pairwise fun c d => c.1 < d.1) :
    (st.write i v).Pairwise fun c d => c.1 < d.1 := by
  induction st with
  | nil => simp [Store.write]
  | cons d rest ih =>
    obtain ⟨j, w⟩ := d
    obtain ⟨hj, hr⟩ := List.pairwise_cons.1 h
    simp only [Store.write]
    split_ifs with h1 h2
    · refine List.pairwise_cons.2 ⟨fun c hc => ?_, h⟩
      rcases List.mem_cons.1 hc with rfl | hc
      · exact h1
      · exact h1.trans (hj c hc)
    · subst h2; exact List.pairwise_cons.2 ⟨hj, hr⟩
    · refine List.pairwise_cons.2 ⟨fun c hc => ?_, ih hr⟩
      rcases Store.mem_write hc with rfl | hc
      · show j < i; omega
      · exact hj c hc

theorem Store.wf_write {st : Store α} {n : Nat} {i : Nat} (v : α) (h : st.wf n) (hi : i < n) : (st.write i v).wf n :=
  ⟨Store.sorted_write i v h.1, fun _ hc => (Store.mem_write hc).elim (fun e => e ▸ hi) (h.2 _)⟩

theorem Store.wf_clearBelow {st : Store α} {n : Nat} (k : Nat) (h : st.wf n) : (st.clearBelow k).wf n :=
  ⟨h.1.filter _, fun c hc => h.2 c (List.mem_filter.1 hc).1⟩

theorem Store.mem_clearBelow {st : Store α} {k : Nat} {c : Nat × α} (h : c ∈ st.clearBelow k) : c ∈ st :=
  (List.mem_filter.1 h).1

/-- A written entry is listed. -/
theorem Store.mem_of_read {st : Store α} {i : Nat} {v : α} (h : st.read i = some v) : (i, v) ∈ st := by
  induction st with
  | nil => simp at h
  | cons d rest ih =>
    obtain ⟨j, w⟩ := d
    simp only [Store.read] at h
    split_ifs at h with hj
    · simp_all
    · exact List.mem_cons_of_mem _ (ih h)

theorem Memory.wf_unwritten (n : Nat) : Memory.unwritten.wf n := by
  refine ⟨?_, ?_, ?_, ?_⟩ <;> exact ⟨.nil, by simp [Memory.unwritten]⟩

@[simp] theorem Memory.entryWord_unwritten (b : Buf) (i : Nat) : Memory.unwritten.entryWord b i = none := by
  cases b <;> rfl

/-- An abort keeps the canonical form. -/
theorem abortedMem_wf {s : State} {n : Nat} (h : s.mem.wf n) : (abortedMem s).wf n := by
  unfold abortedMem
  split
  · split <;> first
      | exact h
      | exact ⟨h.1, Store.wf_clearBelow _ h.2.1, h.2.2⟩
      | exact ⟨h.1, h.2.1, h.2.2.1, Store.wf_clearBelow _ h.2.2.2⟩
  · exact h

/-- What an abort does: nothing, or it clears the output of the command in progress (R191). -/
theorem abortedMem_cases (s : State) :
    abortedMem s = s.mem ∨
    (s.pend = 0x2#32 ∧ abortedMem s = { s.mem with imgOut := s.mem.imgOut.clearBelow s.pixelCount }) ∨
    ((s.pend = 0x3#32 ∨ s.pend = 0x13#32) ∧
      abortedMem s = { s.mem with msgOut := s.mem.msgOut.clearBelow s.pixelCount }) := by
  unfold abortedMem
  split
  · split <;> first
      | exact .inl rfl
      | exact .inr (.inl ⟨decode_embed ‹_›, rfl⟩)
      | exact .inr (.inr ⟨decode_extract ‹_›, rfl⟩)
  · exact .inl rfl

/-- A list of values written at `k`, `k + 1`, ... -/
def Store.writeList (st : Store α) (k : Nat) (vs : List α) : Store α :=
  match vs with
  | [] => st
  | v :: rest => Store.writeList (st.write k v) (k + 1) rest

theorem Store.writeList_append (st : Store α) (k : Nat) (vs ws : List α) :
    st.writeList k (vs ++ ws) = (st.writeList k vs).writeList (k + vs.length) ws := by
  induction vs generalizing st k with
  | nil => simp [Store.writeList]
  | cons v rest ih => simp [Store.writeList, ih, Nat.add_assoc, Nat.add_comm 1]

theorem Store.read_writeList_below (st : Store α) (k : Nat) (vs : List α) {i : Nat} (h : i < k) :
    (st.writeList k vs).read i = st.read i := by
  induction vs generalizing st k with
  | nil => rfl
  | cons v rest ih => rw [Store.writeList, ih _ _ (by omega), Store.read_write_other _ _ (by omega)]

theorem Store.read_writeList_above (st : Store α) (k : Nat) (vs : List α) {i : Nat} (h : k + vs.length ≤ i) :
    (st.writeList k vs).read i = st.read i := by
  induction vs generalizing st k with
  | nil => rfl
  | cons v rest ih =>
    simp only [List.length_cons] at h
    rw [Store.writeList, ih _ _ (by omega), Store.read_write_other _ _ (by omega)]

theorem Store.read_writeList_at (st : Store α) (k : Nat) (vs : List α) {j : Nat} (h : j < vs.length) :
    (st.writeList k vs).read (k + j) = some vs[j] := by
  induction vs generalizing st k j with
  | nil => simp at h
  | cons v rest ih =>
    cases j with
    | zero => rw [Store.writeList, Store.read_writeList_below _ _ _ (by omega)]; simp
    | succ j =>
      have := ih (st.write k v) (k + 1) (j := j) (by simpa using h)
      rw [Store.writeList, show k + (j + 1) = k + 1 + j by omega, this]
      rfl

theorem Store.wf_writeList {st : Store α} {n : Nat} {k : Nat} {vs : List α} (h : st.wf n) (hk : k + vs.length ≤ n) :
    (st.writeList k vs).wf n := by
  induction vs generalizing st k with
  | nil => exact h
  | cons v rest ih =>
    simp only [List.length_cons] at hk
    exact ih (Store.wf_write v h (by omega)) (by omega)

theorem Store.mem_writeList {st : Store α} {k : Nat} {vs : List α} {c : Nat × α} (h : c ∈ st.writeList k vs) :
    c ∈ st ∨ c.2 ∈ vs := by
  induction vs generalizing st k with
  | nil => exact .inl h
  | cons v rest ih =>
    rcases ih h with h | h
    · rcases Store.mem_write h with rfl | h
      · exact .inr (by simp)
      · exact .inl h
    · exact .inr (List.mem_cons_of_mem _ h)

end Sys2Proof.Machine
end

