-- ==== Sys2Proof/Laws/Scan.lean ====
section
/-! SUPPORT. What the walks of EMBED and EXTRACT do: one lemma for a walk that ends, one for a walk that faults (R141, R161). -/

namespace Sys2Proof.Machine

theorem engineRead_ok {α : Type} {b : Buf} {st : Store α} {i : Nat} {v : α} (h : engineRead b st i = .ok v) :
    st.read i = some v := by
  unfold engineRead at h
  split at h <;> simp_all

theorem engineRead_error {α : Type} {b : Buf} {st : Store α} {i : Nat} {f : Fault} (h : engineRead b st i = .error f) :
    f = .engineReadUnwritten b i ∧ st.read i = none := by
  unfold engineRead at h
  split at h <;> simp_all

/-- The pixels of the scan are those of the image. -/
theorem mem_scan {W H : Nat} {p : Nat × Nat} : p ∈ scan W H ↔ p.1 < W ∧ p.2 < H := by
  obtain ⟨x, y⟩ := p
  simp [scan]

theorem embedByte_ok {len : Nat} {m : Memory} {k : Nat} {b : Byte} (h : embedByte len m k = .ok b) :
    if k < len then m.msgIn.read k = some b else b = 0x00#8 := by
  unfold embedByte at h
  split_ifs at h ⊢
  · exact engineRead_ok h
  · simpa using h.symm

theorem embedPixel_ok {W len : Nat} {p : Nat × Nat} {m m' : Memory} {k : Nat} (h : embedPixel W len p m k = .ok m') :
    ∃ b px, (if k < len then m.msgIn.read k = some b else b = 0x00#8) ∧ m.imgIn.read (idx W p.1 p.2) = some px ∧
      m' = { m with imgOut := m.imgOut.write (idx W p.1 p.2) (pack px b) } := by
  unfold embedPixel at h
  split at h
  · simp at h
  next b hb =>
    split at h
    · simp at h
    next px hp => exact ⟨b, px, embedByte_ok hb, engineRead_ok hp, by simpa using h.symm⟩

theorem embedPixel_error {W len : Nat} {p : Nat × Nat} {m : Memory} {k : Nat} {f : Fault}
    (h : embedPixel W len p m k = .error f) :
    (f = .engineReadUnwritten .msgIn k ∧ k < len ∧ m.msgIn.read k = none) ∨
    (f = .engineReadUnwritten .imgIn (idx W p.1 p.2) ∧ m.imgIn.read (idx W p.1 p.2) = none) := by
  unfold embedPixel at h
  split at h
  next hb =>
    unfold embedByte at hb
    split_ifs at hb with hk
    · obtain ⟨rfl, hn⟩ := engineRead_error hb
      exact .inl ⟨by simpa using h.symm, hk, hn⟩
  next =>
    split at h
    next hp =>
      obtain ⟨rfl, hn⟩ := engineRead_error hp
      exact .inr ⟨by simpa using h.symm, hn⟩
    · simp at h

/-- EMBED's walk that ends: only IMG_OUT changes; an entry outside the walked pixels is kept; the cursor counts the walked
pixels up to L; the j-th walked pixel holds its packed value. -/
theorem embedScan_ok {W len : Nat} {ps : List (Nat × Nat)} {m m' : Memory} {k k' : Nat} (hk : k ≤ len)
    (h : embedScan W len ps m k = .ok (m', k')) :
    k' = min (k + ps.length) len ∧
    m' = { m with imgOut := m'.imgOut } ∧
    (∀ i, (∀ p ∈ ps, idx W p.1 p.2 ≠ i) → m'.imgOut.read i = m.imgOut.read i) ∧
    (∀ n, (∀ p ∈ ps, idx W p.1 p.2 < n) → m.imgOut.wf n → m'.imgOut.wf n) ∧
    ((ps.map fun p => idx W p.1 p.2).Nodup → ∀ j (hj : j < ps.length), ∃ b px,
      (if k + j < len then m.msgIn.read (k + j) = some b else b = 0x00#8) ∧
      m.imgIn.read (idx W ps[j].1 ps[j].2) = some px ∧
      m'.imgOut.read (idx W ps[j].1 ps[j].2) = some (pack px b)) := by
  induction ps generalizing m k with
  | nil =>
    simp only [embedScan, Except.ok.injEq, Prod.mk.injEq] at h
    obtain ⟨rfl, rfl⟩ := h
    simp [hk]
  | cons p rest ih =>
    unfold embedScan at h
    split at h
    · simp at h
    next m1 h1 =>
      obtain ⟨b, px, hb, hpx, rfl⟩ := embedPixel_ok h1
      have hcur : (if k < len then k + 1 else k) = min (k + 1) len := by split_ifs <;> omega
      rw [hcur] at h
      obtain ⟨e1, e2, e3, e4, e5⟩ := ih (by omega) h
      refine ⟨by rw [e1, List.length_cons]; omega, e2, ?_, ?_, ?_⟩
      · intro i hi
        rw [e3 i fun q hq => hi q (List.mem_cons_of_mem _ hq)]
        exact Store.read_write_other _ _ (hi p (by simp)).symm
      · intro n hn hw
        exact e4 n (fun q hq => hn q (List.mem_cons_of_mem _ hq)) (Store.wf_write _ hw (hn p (by simp)))
      · intro hnd j hj
        rw [List.map_cons, List.nodup_cons] at hnd
        cases j with
        | zero =>
          refine ⟨b, px, hb, hpx, ?_⟩
          rw [List.getElem_cons_zero, e3]
          · simp
          · intro q hq he
            exact hnd.1 (List.mem_map.2 ⟨q, hq, he⟩)
        | succ j =>
          obtain ⟨b', px', g1, g2, g3⟩ := e5 hnd.2 j (by simpa using hj)
          refine ⟨b', px', ?_, by simpa using g2, by simpa using g3⟩
          by_cases hlt : k + (j + 1) < len
          · have h2 : min (k + 1) len + j = k + (j + 1) := by omega
            rw [h2] at g1
            simpa [hlt] using g1
          · have h2 : ¬ min (k + 1) len + j < len := by omega
            simpa [hlt, h2] using g1

/-- EMBED's walk that faults names an unwritten message byte below L, or an unwritten pixel of the walk. -/
theorem embedScan_error {W len : Nat} {ps : List (Nat × Nat)} {m : Memory} {k : Nat} {f : Fault}
    (h : embedScan W len ps m k = .error f) :
    (∃ j, f = .engineReadUnwritten .msgIn j ∧ j < len ∧ m.msgIn.read j = none) ∨
    (∃ p ∈ ps, f = .engineReadUnwritten .imgIn (idx W p.1 p.2) ∧ m.imgIn.read (idx W p.1 p.2) = none) := by
  induction ps generalizing m k with
  | nil => simp [embedScan] at h
  | cons p rest ih =>
    unfold embedScan at h
    split at h
    next h1 =>
      obtain rfl := Except.error.inj h
      rcases embedPixel_error h1 with ⟨rfl, hk, hn⟩ | ⟨rfl, hn⟩
      · exact .inl ⟨k, rfl, hk, hn⟩
      · exact .inr ⟨p, by simp, rfl, hn⟩
    next m1 h1 =>
      obtain ⟨b, px, -, -, rfl⟩ := embedPixel_ok h1
      rcases ih h with ⟨j, e⟩ | ⟨q, hq, e⟩
      · exact .inl ⟨j, e⟩
      · exact .inr ⟨q, List.mem_cons_of_mem _ hq, e⟩

/-- EMBED's walk reads MSG_IN below L only. -/
theorem embedScan_msgIn_congr {W len : Nat} {ps : List (Nat × Nat)} {m : Memory} {k : Nat} {other : Store Byte}
    (ho : ∀ j < len, other.read j = m.msgIn.read j) :
    embedScan W len ps { m with msgIn := other } k =
      match embedScan W len ps m k with
      | .ok (m', k') => .ok ({ m' with msgIn := other }, k')
      | .error f => .error f := by
  induction ps generalizing m k with
  | nil => simp [embedScan]
  | cons p rest ih =>
    have hb : embedByte len { m with msgIn := other } k = embedByte len m k := by
      unfold embedByte engineRead
      split_ifs with hk
      · simp only [ho k hk]
      · rfl
    have hp : embedPixel W len p { m with msgIn := other } k =
        match embedPixel W len p m k with
        | .ok m' => .ok { m' with msgIn := other }
        | .error f => .error f := by
      unfold embedPixel
      rw [hb]
      cases embedByte len m k with
      | error f => rfl
      | ok b =>
        show (match engineRead .imgIn m.imgIn _ with | .error f => _ | .ok px => _) = _
        cases engineRead .imgIn m.imgIn (idx W p.1 p.2) <;> simp
    unfold embedScan
    rw [hp]
    cases h1 : embedPixel W len p m k with
    | error f => rfl
    | ok m' =>
      obtain ⟨b, px, -, -, rfl⟩ := embedPixel_ok h1
      exact ih (m := { m with imgOut := _ }) ho

/-- The zero-free prefix of the bytes of the rows `ys` of column `x`. -/
def prefixOf (src : Store Word) (W x : Nat) (ys : List Nat) : List Byte :=
  (ys.map fun y => unpack ((src.read (idx W x y)).getD 0#32)).takeWhile fun b => b != 0x00#8

theorem columnBytes_eq_prefixOf (src : Store Word) (W H x : Nat) :
    columnBytes src W H x = prefixOf src W x (List.range H) := rfl

theorem prefixOf_zeroFree {src : Store Word} {W x : Nat} {ys : List Nat} {b : Byte} (h : b ∈ prefixOf src W x ys) :
    b ≠ 0x00#8 := by
  simpa using List.mem_takeWhile_imp h

theorem prefixOf_length_le (src : Store Word) (W x : Nat) (ys : List Nat) : (prefixOf src W x ys).length ≤ ys.length := by
  simpa [prefixOf] using (List.takeWhile_sublist (fun b => b != 0x00#8)
    (l := ys.map fun y => unpack ((src.read (idx W x y)).getD 0#32))).length_le

/-- EXTRACT's walk down a column that ends: the zero-free prefix is appended. -/
theorem extractColumn_ok {b : Buf} {src : Store Word} {W x : Nat} {ys : List Nat} {out out' : Store Byte} {k k' : Nat}
    (h : extractColumn b src W x ys out k = .ok (out', k')) :
    out' = out.writeList k (prefixOf src W x ys) ∧ k' = k + (prefixOf src W x ys).length := by
  induction ys generalizing out k with
  | nil => simp_all [extractColumn, prefixOf, Store.writeList]
  | cons y rest ih =>
    unfold extractColumn at h
    split at h
    · simp at h
    next px hp =>
      have hr := engineRead_ok hp
      split_ifs at h with he
      · have hz : unpack px = 0x00#8 := by simpa [empty] using he
        simp_all [prefixOf, Store.writeList]
      · have hz : (unpack px != 0x00#8) = true := by simpa [empty] using he
        obtain ⟨e1, e2⟩ := ih h
        have hpre : prefixOf src W x (y :: rest) = unpack px :: prefixOf src W x rest := by
          unfold prefixOf
          rw [List.map_cons, hr, Option.getD_some, List.takeWhile_cons, if_pos hz]
        rw [hpre]
        exact ⟨e1, by rw [e2, List.length_cons]; omega⟩

/-- EXTRACT's walk down a column that faults names an unwritten pixel, reached over rows that all hold a byte. -/
theorem extractColumn_error {b : Buf} {src : Store Word} {W x : Nat} {ys : List Nat} {out : Store Byte} {k : Nat} {f : Fault}
    (h : extractColumn b src W x ys out k = .error f) :
    ∃ pre y post, ys = pre ++ y :: post ∧ f = .engineReadUnwritten b (idx W x y) ∧ src.read (idx W x y) = none ∧
      ∀ y' ∈ pre, ∃ p, src.read (idx W x y') = some p ∧ unpack p ≠ 0x00#8 := by
  induction ys generalizing out k with
  | nil => simp [extractColumn] at h
  | cons y rest ih =>
    unfold extractColumn at h
    split at h
    next hp =>
      obtain ⟨rfl, hn⟩ := engineRead_error hp
      exact ⟨[], y, rest, rfl, by simpa using h.symm, hn, by simp⟩
    next px hp =>
      split_ifs at h with he
      · obtain ⟨pre, y', post, e1, e2, e3, e4⟩ := ih h
        refine ⟨y :: pre, y', post, by simp [e1], e2, e3, fun z hz => ?_⟩
        rcases List.mem_cons.1 hz with rfl | hz
        · exact ⟨px, engineRead_ok hp, by simpa [empty] using he⟩
        · exact e4 z hz

/-- EXTRACT's walk that ends: the columns' zero-free prefixes are appended in order. -/
theorem extractScan_ok {b : Buf} {src : Store Word} {W H : Nat} {xs : List Nat} {out out' : Store Byte} {k k' : Nat}
    (h : extractScan b src W H xs out k = .ok (out', k')) :
    out' = out.writeList k (xs.flatMap fun x => prefixOf src W x (List.range H)) ∧
    k' = k + (xs.flatMap fun x => prefixOf src W x (List.range H)).length := by
  induction xs generalizing out k with
  | nil => simp_all [extractScan, Store.writeList]
  | cons x rest ih =>
    unfold extractScan at h
    split at h
    · simp at h
    next o1 k1 h1 =>
      obtain ⟨rfl, rfl⟩ := extractColumn_ok h1
      obtain ⟨e1, e2⟩ := ih h
      rw [List.flatMap_cons, Store.writeList_append, List.length_append]
      exact ⟨e1, by rw [e2]; omega⟩

/-- In `range H`, what stands before `y` is `range y`. -/
theorem range_split {H y : Nat} {pre post : List Nat} (h : List.range H = pre ++ y :: post) :
    y < H ∧ ∀ z, z ∈ pre ↔ z < y := by
  have hy : y = pre.length := by
    have h1 : (List.range H)[pre.length]? = some y := by rw [h]; simp
    rw [List.getElem?_range] at h1
    · simpa using h1.symm
    · have := congrArg List.length h
      simp at this
      omega
  have hl : y < H := by
    have := congrArg List.length h
    simp at this
    omega
  refine ⟨hl, fun z => ?_⟩
  have hpre : pre = (List.range H).take pre.length := by rw [h]; simp
  rw [hpre, List.take_range, ← hy, Nat.min_eq_left hl.le, List.mem_range]

/-- EXTRACT's walk that faults names an unwritten pixel that the scan reaches. -/
theorem extractScan_error {b : Buf} {src : Store Word} {W H : Nat} {xs : List Nat} {out : Store Byte} {k : Nat} {f : Fault}
    (h : extractScan b src W H xs out k = .error f) :
    ∃ x ∈ xs, ∃ y < H, f = .engineReadUnwritten b (idx W x y) ∧ src.read (idx W x y) = none ∧ scanReaches src W x y := by
  induction xs generalizing out k with
  | nil => simp [extractScan] at h
  | cons x rest ih =>
    unfold extractScan at h
    split at h
    next h1 =>
      obtain rfl := Except.error.inj h
      obtain ⟨pre, y, post, e1, e2, e3, e4⟩ := extractColumn_error h1
      obtain ⟨hy, hpre⟩ := range_split e1
      exact ⟨x, by simp, y, hy, e2, e3, fun y' hy' => e4 y' ((hpre y').2 hy')⟩
    next o1 k1 h1 =>
      obtain ⟨x', hx', e⟩ := ih h
      exact ⟨x', List.mem_cons_of_mem _ hx', e⟩

/-- At most one byte a pixel. -/
theorem imageBytes_length_le (src : Store Word) (W H : Nat) : (imageBytes src W H).length ≤ W * H := by
  unfold imageBytes
  rw [List.length_flatMap]
  calc _ ≤ ((List.range W).map fun _ => H).sum := by
        refine List.sum_le_sum fun x _ => ?_
        simpa [columnBytes_eq_prefixOf] using prefixOf_length_le src W x (List.range H)
    _ = W * H := by simp

end Sys2Proof.Machine
end

