-- ==== Sys2Proof/Laws/Commands.lean ====
section
/-! SUPPORT. What each command that answers a next state has done, and the frame all completions share (R94, R186). -/

namespace Sys2Proof.Machine

/-- The cases of EMBED: BAD_DIM, CAPACITY, or the walk to its end (R141, R214). -/
theorem execEmbed_next {s t : State} (h : execEmbed s = .next t) :
    (s.nMax.n < s.pixelCount ∧ t = complete .badDim { s with capOk := cap s.len s.pixelCount }) ∨
    (s.pixelCount ≤ s.nMax.n ∧ s.pixelCount < s.len ∧ t = complete .capacity { s with capOk := false }) ∨
    (s.pixelCount ≤ s.nMax.n ∧ s.len ≤ s.pixelCount ∧ ∃ m k,
      embedScan s.width.toNat s.len (scan s.width.toNat s.height.toNat) s.mem 0 = .ok (m, k) ∧
      t = complete .none { s with capOk := true, mem := m, resultLen := BitVec.ofNat 32 k }) := by
  by_cases hf : s.pixelCount ≤ s.nMax.n
  · by_cases hc : s.len ≤ s.pixelCount
    · simp only [execEmbed, State.imageFits, cap, hf, hc, decide_true, Bool.not_true, Bool.false_eq_true, if_false] at h
      split at h
      · simp at h
      next m k hs => exact .inr (.inr ⟨hf, hc, m, k, hs, (Host.Outcome.next.inj h).symm⟩)
    · simp only [execEmbed, State.imageFits, cap, hf, hc, decide_true, decide_false, Bool.not_true, Bool.not_false,
        Bool.false_eq_true, if_false, if_true] at h
      exact .inr (.inl ⟨hf, by omega, (Host.Outcome.next.inj h).symm⟩)
  · simp only [execEmbed, State.imageFits, hf, decide_false, Bool.not_false, if_true] at h
    exact .inl ⟨by omega, (Host.Outcome.next.inj h).symm⟩

/-- EMBED past its checks is its walk (R141). -/
theorem execEmbed_walk {s : State} (hf : s.pixelCount ≤ s.nMax.n) (hc : s.len ≤ s.pixelCount) :
    execEmbed s =
      match embedScan s.width.toNat s.len (scan s.width.toNat s.height.toNat) s.mem 0 with
      | .error f => .fault f
      | .ok (m, k) => .next (complete .none { s with capOk := true, mem := m, resultLen := BitVec.ofNat 32 k }) := by
  simp only [execEmbed, State.imageFits, cap, hf, hc, decide_true, Bool.not_true, Bool.false_eq_true, if_false] <;> rfl

/-- The cases of EXTRACT: BAD_DIM, or the walk to its end (R161). -/
theorem execExtract_next {sBit : Bool} {s t : State} (h : execExtract sBit s = .next t) :
    (s.nMax.n < s.pixelCount ∧ t = complete .badDim s) ∨
    (s.pixelCount ≤ s.nMax.n ∧
      t = complete .none { s with
        mem := { s.mem with msgOut :=
          s.mem.msgOut.writeList 0 (imageBytes (s.mem.source sBit) s.width.toNat s.height.toNat) },
        resultLen := BitVec.ofNat 32 (imageBytes (s.mem.source sBit) s.width.toNat s.height.toNat).length }) := by
  by_cases hf : s.pixelCount ≤ s.nMax.n
  · simp only [execExtract, State.imageFits, hf, decide_true, Bool.not_true, Bool.false_eq_true, if_false] at h
    split at h
    · simp at h
    next out k hs =>
      obtain ⟨rfl, rfl⟩ := extractScan_ok hs
      rw [Nat.zero_add] at h
      exact .inr ⟨hf, (Host.Outcome.next.inj h).symm⟩
  · simp only [execExtract, State.imageFits, hf, decide_false, Bool.not_false, if_true] at h
    exact .inl ⟨by omega, (Host.Outcome.next.inj h).symm⟩

/-- EXTRACT past its check is its walk (R161). -/
theorem execExtract_walk {sBit : Bool} {s : State} (hf : s.pixelCount ≤ s.nMax.n) :
    execExtract sBit s =
      match extractScan (sourceBuf sBit) (s.mem.source sBit) s.width.toNat s.height.toNat (List.range s.width.toNat)
        s.mem.msgOut 0 with
      | .error f => .fault f
      | .ok (out, k) =>
        .next (complete .none { s with mem := { s.mem with msgOut := out }, resultLen := BitVec.ofNat 32 k }) := by
  simp only [execExtract, State.imageFits, hf, decide_true, Bool.not_true, Bool.false_eq_true, if_false] <;> rfl

/-- What a completion may change: STATUS, the outputs, and nothing else (R94). -/
theorem exec_next_frame {i : Instr} {s t : State} (hi : i ≠ .sreset) (h : exec i s = .next t) :
    t = complete t.err { s with
      capOk := t.capOk, resultLen := t.resultLen, pixR := t.pixR, byteR := t.byteR,
      mem := { s.mem with imgOut := t.mem.imgOut, msgOut := t.mem.msgOut } } := by
  cases i with
  | nop => obtain rfl := Host.Outcome.next.inj h; rfl
  | capchk => obtain rfl := Host.Outcome.next.inj h; rfl
  | pack => obtain rfl := Host.Outcome.next.inj h; rfl
  | unpack => obtain rfl := Host.Outcome.next.inj h; rfl
  | sreset => exact absurd rfl hi
  | embed =>
    rcases execEmbed_next h with ⟨-, rfl⟩ | ⟨-, -, rfl⟩ | ⟨-, -, m, k, hs, rfl⟩
    · rfl
    · rfl
    · obtain ⟨-, e, -⟩ := embedScan_ok (Nat.zero_le _) hs
      rw [e]; rfl
  | extract sBit =>
    rcases execExtract_next h with ⟨-, rfl⟩ | ⟨-, rfl⟩ <;> rfl

/-- Every index EMBED's walk writes is below W × H. -/
theorem idx_lt_of_mem_scan {W H : Nat} {p : Nat × Nat} (h : p ∈ scan W H) : idx W p.1 p.2 < W * H := by
  obtain ⟨hx, hy⟩ := mem_scan.1 h
  unfold idx
  calc p.2 * W + p.1 < p.2 * W + W := by omega
    _ = (p.2 + 1) * W := by ring
    _ ≤ H * W := Nat.mul_le_mul_right _ hy
    _ = W * H := Nat.mul_comm _ _

/-- Every command keeps the canonical form of the buffers. -/
theorem exec_keeps_memWf {i : Instr} {s t : State} (h : exec i s = .next t) (hw : s.mem.wf s.nMax.n) :
    t.mem.wf t.nMax.n := by
  cases i with
  | nop => obtain rfl := Host.Outcome.next.inj h; exact hw
  | capchk => obtain rfl := Host.Outcome.next.inj h; exact hw
  | pack => obtain rfl := Host.Outcome.next.inj h; exact hw
  | unpack => obtain rfl := Host.Outcome.next.inj h; exact hw
  | sreset =>
    obtain rfl := Host.Outcome.next.inj h
    by_cases hb : s.op = .busy
    · simp only [hb, if_true]
      exact abortedMem_wf hw
    · simp only [hb, if_false]
      exact hw
  | embed =>
    rcases execEmbed_next h with ⟨-, rfl⟩ | ⟨-, -, rfl⟩ | ⟨hf, -, m, k, hs, rfl⟩
    · exact hw
    · exact hw
    · obtain ⟨-, e, -, hk, -⟩ := embedScan_ok (Nat.zero_le _) hs
      rw [e]
      exact ⟨hw.1, hk _ (fun p hp => (idx_lt_of_mem_scan hp).trans_le hf) hw.2.1, hw.2.2⟩
  | extract sBit =>
    rcases execExtract_next h with ⟨-, rfl⟩ | ⟨hf, rfl⟩
    · exact hw
    · refine ⟨hw.1, hw.2.1, hw.2.2.1, Store.wf_writeList hw.2.2.2 ?_⟩
      have := imageBytes_length_le (s.mem.source sBit) s.width.toNat s.height.toNat
      show 0 + _ ≤ s.nMax.n
      rw [Nat.zero_add]
      exact this.trans hf

/-- A byte of an image's contents is not the empty marker (R167). -/
theorem imageBytes_zeroFree {src : Store Word} {W H : Nat} {b : Byte} (h : b ∈ imageBytes src W H) : b ≠ 0x00#8 := by
  obtain ⟨x, -, hx⟩ := List.mem_flatMap.1 h
  exact prefixOf_zeroFree hx

/-- W × H fits 32 bits (R36, R134). -/
theorem pixelCount_le (s : State) : s.pixelCount ≤ 0xFFFE0001 := by
  have hw : s.width.toNat ≤ 0xFFFF := by have := s.width.isLt; omega
  have hh : s.height.toNat ≤ 0xFFFF := by have := s.height.isLt; omega
  exact Nat.mul_le_mul hw hh

/-- EMBED and EXTRACT set RESULT_LEN to at most W × H <= N_MAX; nothing else raises it (R37, R164). -/
theorem exec_keeps_resultBound {i : Instr} {s t : State} (h : exec i s = .next t)
    (hr : s.resultLen.toNat ≤ s.nMax.n) : t.resultLen.toNat ≤ t.nMax.n := by
  cases i with
  | nop => obtain rfl := Host.Outcome.next.inj h; exact hr
  | capchk => obtain rfl := Host.Outcome.next.inj h; exact hr
  | pack => obtain rfl := Host.Outcome.next.inj h; exact hr
  | unpack => obtain rfl := Host.Outcome.next.inj h; exact hr
  | sreset => obtain rfl := Host.Outcome.next.inj h; simp [resetRegisters]
  | embed =>
    rcases execEmbed_next h with ⟨-, rfl⟩ | ⟨-, -, rfl⟩ | ⟨hf, hc, m, k, hs, rfl⟩
    · exact hr
    · exact hr
    · obtain ⟨hk, -⟩ := embedScan_ok (Nat.zero_le _) hs
      show (BitVec.ofNat 32 k).toNat ≤ s.nMax.n
      rw [BitVec.toNat_ofNat]
      exact (Nat.mod_le _ _).trans (by omega)
  | extract sBit =>
    rcases execExtract_next h with ⟨-, rfl⟩ | ⟨hf, rfl⟩
    · exact hr
    · show (BitVec.ofNat 32 _).toNat ≤ s.nMax.n
      rw [BitVec.toNat_ofNat]
      exact (Nat.mod_le _ _).trans ((imageBytes_length_le _ _ _).trans hf)

/-- No command puts a byte 0x00 into MSG_OUT (R167). -/
theorem exec_keeps_msgOutNoZero {i : Instr} {s t : State} (h : exec i s = .next t)
    (hz : ∀ c ∈ s.mem.msgOut, c.2 ≠ 0x00#8) : ∀ c ∈ t.mem.msgOut, c.2 ≠ 0x00#8 := by
  cases i with
  | nop => obtain rfl := Host.Outcome.next.inj h; exact hz
  | capchk => obtain rfl := Host.Outcome.next.inj h; exact hz
  | pack => obtain rfl := Host.Outcome.next.inj h; exact hz
  | unpack => obtain rfl := Host.Outcome.next.inj h; exact hz
  | sreset =>
    obtain rfl := Host.Outcome.next.inj h
    by_cases hb : s.op = .busy
    · simp only [hb, if_true]
      show ∀ c ∈ (abortedMem s).msgOut, _
      rcases abortedMem_cases s with e | ⟨-, e⟩ | ⟨-, e⟩ <;> rw [e]
      · exact hz
      · exact hz
      · exact fun c hc => hz c (Store.mem_clearBelow hc)
    · simp only [hb, if_false]
      exact hz
  | embed =>
    rcases execEmbed_next h with ⟨-, rfl⟩ | ⟨-, -, rfl⟩ | ⟨hf, hc, m, k, hs, rfl⟩
    · exact hz
    · exact hz
    · obtain ⟨-, e, -⟩ := embedScan_ok (Nat.zero_le _) hs
      rw [e]
      exact hz
  | extract sBit =>
    rcases execExtract_next h with ⟨-, rfl⟩ | ⟨hf, rfl⟩
    · exact hz
    · intro c hc
      rcases Store.mem_writeList hc with hc | hc
      · exact hz c hc
      · exact imageBytes_zeroFree hc

/-- A command faults only by reading an unwritten entry. -/
theorem exec_fault {i : Instr} {s : State} {f : Fault} (h : exec i s = .fault f) : ∃ b k, f = .engineReadUnwritten b k := by
  cases i with
  | nop => simp [exec, execNop] at h
  | capchk => simp [exec, execCapchk] at h
  | pack => simp [exec, execPack] at h
  | unpack => simp [exec, execUnpack] at h
  | sreset => simp [exec, execSreset] at h
  | embed =>
    simp only [exec, execEmbed] at h
    split_ifs at h
    split at h
    next hs =>
      obtain rfl := Host.Outcome.fault.inj h
      rcases embedScan_error hs with ⟨j, e, -⟩ | ⟨p, -, e, -⟩ <;> exact ⟨_, _, e⟩
    · simp at h
  | extract sBit =>
    simp only [exec, execExtract] at h
    split_ifs at h
    split at h
    next hs =>
      obtain rfl := Host.Outcome.fault.inj h
      obtain ⟨x, -, y, -, e, -⟩ := extractScan_error hs
      exact ⟨_, _, e⟩
    · simp at h

end Sys2Proof.Machine
end

