-- ==== Sys2Proof/Laws/Datapath.lean ====
section
/-! SUPPORT. The datapath bit by bit (R115, R116): where each bit of pack and unpack comes from. -/

namespace Sys2Proof.Machine

/-- Bit j of a packed pixel is bit j of the pixel, but for the two low bits of each channel, which are the byte's (R115). -/
theorem getLsbD_pack (P : Word) (B : Byte) {j : Nat} (hj : j < 32) :
    (pack P B).getLsbD j = if j % 8 < 2 then B.getLsbD (2 * (j / 8) + j % 8) else P.getLsbD j := by
  unfold pack setlsb2 hi6 channel group
  simp only [BitVec.getLsbD_append]
  interval_cases j <;> simp

/-- Bit j of the unpacked byte is bit j % 2 of channel j / 2 (R116). -/
theorem getLsbD_unpack (P : Word) {j : Nat} (hj : j < 8) :
    (unpack P).getLsbD j = P.getLsbD (8 * (j / 2) + j % 2) := by
  unfold unpack slice lsb2 channel
  interval_cases j <;> simp

end Sys2Proof.Machine
end

