-- ==== Sys2Proof/Laws/PerInstr.lean ====
section
/-! SUPPORT. Per-command facts about the syntax: every command is well formed and its encoding is a legal word by its fields (R91 to R93). -/

namespace Sys2Proof.Laws.LegalEncoding

def Statement (i : Instr) : Prop :=
  i.wf = true ∧ CommandWord.rsvZero (encode i) = true ∧ CommandWord.opKnown (encode i) = true ∧
    CommandWord.selectFits (encode i) = true

theorem nop : Statement .nop := by unfold Statement; decide
theorem capchk : Statement .capchk := by unfold Statement; decide
theorem embed : Statement .embed := by unfold Statement; decide
theorem extract (sBit : Bool) : Statement (.extract sBit) := by cases sBit <;> (unfold Statement; decide)
theorem pack : Statement .pack := by unfold Statement; decide
theorem unpack : Statement .unpack := by unfold Statement; decide
theorem sreset : Statement .sreset := by unfold Statement; decide

end Sys2Proof.Laws.LegalEncoding
end

