-- ==== Sys2Proof/Laws/Port.lean ====
section
/-! SUPPORT. What the port does: the address map in numbers (R61, R62, R68, R69), and everything a host access that answers can do
(R183, R184, R189, R192). -/

namespace Sys2Proof.Machine

theorem aligned_iff (a : Word) : a.extractLsb' 0 2 = 0#2 ↔ a.toNat % 4 = 0 := by
  rw [← BitVec.toNat_inj]
  simp [BitVec.extractLsb'_toNat]

theorem highBits_iff (a : Word) : a.extractLsb' 27 5 = 0#5 ↔ a.toNat < 0x08000000 := by
  rw [← BitVec.toNat_inj]
  have := a.isLt
  simp [BitVec.extractLsb'_toNat, Nat.shiftRight_eq_div_pow]
  omega

theorem bufBits_toNat (a : Word) : (a.extractLsb' 24 3).toNat = a.toNat / 0x01000000 % 8 := by
  simp [BitVec.extractLsb'_toNat, Nat.shiftRight_eq_div_pow]

theorem indexBits_toNat (a : Word) : (a.extractLsb' 2 22).toNat = a.toNat / 4 % 0x400000 := by
  simp [BitVec.extractLsb'_toNat, Nat.shiftRight_eq_div_pow]

theorem regAt_some {k : Nat} {r : Reg} : regAt k = some r ↔ r.offset.toNat = 4 * k := by
  constructor
  · intro h
    unfold regAt at h
    split at h <;> simp_all <;> subst h <;> rfl
  · intro h
    cases r <;> simp [Reg.offset] at h <;>
      first
        | (obtain rfl : k = 0 := by omega); rfl
        | (obtain rfl : k = 1 := by omega); rfl
        | (obtain rfl : k = 2 := by omega); rfl
        | (obtain rfl : k = 3 := by omega); rfl
        | (obtain rfl : k = 4 := by omega); rfl
        | (obtain rfl : k = 5 := by omega); rfl
        | (obtain rfl : k = 6 := by omega); rfl
        | (obtain rfl : k = 7 := by omega); rfl
        | (obtain rfl : k = 8 := by omega); rfl
        | (obtain rfl : k = 9 := by omega); rfl
        | (obtain rfl : k = 10 := by omega); rfl
        | (obtain rfl : k = 11 := by omega); rfl
        | (obtain rfl : k = 12 := by omega); rfl
        | (obtain rfl : k = 13 := by omega); rfl

theorem regAt_none {k : Nat} : regAt k = none ↔ 14 ≤ k := by
  constructor
  · intro h
    by_contra hk
    have : k < 14 := by omega
    interval_cases k <;> simp [regAt] at h
  · intro h
    unfold regAt
    split <;> first | omega | rfl

/-- The number of a buffer's window, A[26:24] (R62). -/
def Buf.window (b : Buf) : Nat :=
  match b with
  | .imgIn => 1
  | .imgOut => 2
  | .msgIn => 3
  | .msgOut => 4

theorem Buf.base_toNat (b : Buf) : b.base.toNat = 0x01000000 * b.window := by cases b <;> rfl

theorem Buf.window_range (b : Buf) : 1 ≤ b.window ∧ b.window ≤ 4 := by cases b <;> decide

theorem bufAt_some {k : Nat} {b : Buf} : bufAt k = some b ↔ k = b.window := by
  constructor
  · intro h
    unfold bufAt at h
    split at h <;> simp_all <;> subst h <;> rfl
  · rintro rfl
    cases b <;> rfl

/-- The map by cases of the offset (R61, R62, R69). -/
theorem locAt_low {n : Nat} {a : Word} (h : a.toNat < 0x38) : locAt n a = (regAt (a.toNat / 4)).map .reg := by
  rw [locAt, if_pos h]

theorem locAt_high {n : Nat} {a : Word} (h : 0x08000000 ≤ a.toNat) : locAt n a = none := by
  rw [locAt, if_neg (by omega), if_neg]
  rw [highBits_iff]
  omega

theorem locAt_window {n : Nat} {a : Word} (h1 : 0x38 ≤ a.toNat) (h2 : a.toNat < 0x08000000) :
    locAt n a = (bufAt (a.toNat / 0x01000000)).bind fun b =>
      if a.toNat % 0x01000000 / 4 < n then some (.entry b (a.toNat % 0x01000000 / 4)) else none := by
  have hx : a.toNat / 4 % 0x400000 = a.toNat % 0x01000000 / 4 := by omega
  have hy : a.toNat / 0x01000000 % 8 = a.toNat / 0x01000000 := by omega
  rw [locAt, if_neg (by omega), if_pos ((highBits_iff a).2 h2), bufBits_toNat, indexBits_toNat, hx, hy]
  cases bufAt (a.toNat / 0x01000000) <;> rfl

/-- The locations of the map: a register (R61). -/
theorem locAt_reg {n : Nat} {a : Word} {r : Reg} (ha : a.toNat % 4 = 0) : locAt n a = some (.reg r) ↔ a = r.offset := by
  have hr : r.offset.toNat < 0x38 := by cases r <;> decide
  constructor
  · intro h
    rcases Nat.lt_or_ge a.toNat 0x38 with h1 | h1
    · rw [locAt_low h1] at h
      simp only [Option.map_eq_some_iff, Loc.reg.injEq, exists_eq_right] at h
      have := regAt_some.1 h
      exact BitVec.eq_of_toNat_eq (by omega)
    · rcases Nat.lt_or_ge a.toNat 0x08000000 with h2 | h2
      · rw [locAt_window h1 h2] at h
        cases hb : bufAt (a.toNat / 0x01000000) <;> simp [hb] at h
      · simp [locAt_high h2] at h
  · rintro rfl
    rw [locAt_low hr, regAt_some.2 (show r.offset.toNat = 4 * (r.offset.toNat / 4) by omega)]
    rfl

/-- The locations of the map: an entry of a window (R62). -/
theorem locAt_entry {n : Nat} (hn : n ≤ 0x400000) {a : Word} {b : Buf} {i : Nat} (ha : a.toNat % 4 = 0) :
    locAt n a = some (.entry b i) ↔ i < n ∧ a.toNat = b.base.toNat + 4 * i := by
  have hw := b.window_range
  have hb := b.base_toNat
  constructor
  · intro h
    rcases Nat.lt_or_ge a.toNat 0x38 with h1 | h1
    · simp [locAt_low h1] at h
    · rcases Nat.lt_or_ge a.toNat 0x08000000 with h2 | h2
      · rw [locAt_window h1 h2, Option.bind_eq_some_iff] at h
        obtain ⟨b', hb', h⟩ := h
        split at h
        · obtain ⟨rfl, rfl⟩ := Loc.entry.inj (Option.some.inj h)
          rw [bufAt_some] at hb'
          exact ⟨by assumption, by omega⟩
        · simp at h
      · simp [locAt_high h2] at h
  · rintro ⟨hi, he⟩
    have hx : a.toNat % 0x01000000 / 4 = i := by omega
    rw [locAt_window (by omega) (by omega), bufAt_some.2 (show a.toNat / 0x01000000 = b.window by omega), hx]
    simp [hi]

/-- What is not in the map (R69). -/
theorem locAt_none {n : Nat} {a : Word} (ha : a.toNat % 4 = 0) :
    locAt n a = none ↔ (0x38 ≤ a.toNat ∧ a.toNat < 0x01000000) ∨ 0x05000000 ≤ a.toNat ∨
      (0x01000000 ≤ a.toNat ∧ a.toNat < 0x05000000 ∧ n ≤ a.toNat % 0x01000000 / 4) := by
  rcases Nat.lt_or_ge a.toNat 0x38 with h1 | h1
  · rw [locAt_low h1, Option.map_eq_none_iff, regAt_none]
    omega
  · rcases Nat.lt_or_ge a.toNat 0x08000000 with h2 | h2
    · rw [locAt_window h1 h2]
      cases hb : bufAt (a.toNat / 0x01000000) with
      | some b =>
        rw [bufAt_some] at hb
        have := b.window_range
        simp only [Option.bind_some]
        split
        · simp only [reduceCtorEq, false_iff]
          omega
        · simp only [true_iff]
          omega
      | none =>
        have hne : ∀ b : Buf, a.toNat / 0x01000000 ≠ b.window := fun b e => by simp [bufAt_some.2 e] at hb
        have h3 := hne .imgIn
        have h4 := hne .imgOut
        have h5 := hne .msgIn
        have h6 := hne .msgOut
        simp only [Buf.window] at h3 h4 h5 h6
        simp only [Option.bind_none, true_iff]
        omega
    · rw [locAt_high h2]
      simp only [true_iff]
      omega

/-- When an access has a location (R68, R69). -/
theorem mapAccess_ok {n : Nat} {a : Access} {l : Loc} :
    mapAccess n a = .ok l ↔ a.bits = 32 ∧ a.offset.toNat % 4 = 0 ∧ locAt n a.offset = some l := by
  unfold mapAccess
  simp only [ne_eq, aligned_iff]
  by_cases h1 : a.bits = 32
  · by_cases h2 : a.offset.toNat % 4 = 0
    · cases locAt n a.offset <;> simp [h1, h2]
    · simp [h1, h2]
  · simp [h1]

/-- Only a word access at a register's offset selects it. -/
theorem mapAccess_reg {n : Nat} {a : Access} {r : Reg} (h : mapAccess n a = .ok (.reg r)) :
    a.bits = 32 ∧ a.offset = r.offset := by
  obtain ⟨h1, h2, h3⟩ := mapAccess_ok.1 h
  exact ⟨h1, (locAt_reg h2).1 h3⟩

theorem mapAccess_regWord (n : Nat) (r : Reg) (dir : Dir) :
    mapAccess n { offset := r.offset, bits := 32, dir := dir } = .ok (.reg r) := by
  have ha : r.offset.toNat % 4 = 0 := by cases r <;> rfl
  exact mapAccess_ok.2 ⟨rfl, ha, (locAt_reg ha).2 rfl⟩

/-- The offset of an existing entry. -/
theorem entryOffset_toNat {b : Buf} {i : Nat} (hi : i < 0x400000) :
    (b.base + BitVec.ofNat 32 (4 * i)).toNat = b.base.toNat + 4 * i := by
  have := b.window_range
  rw [BitVec.toNat_add, BitVec.toNat_ofNat, b.base_toNat]
  omega

theorem mapAccess_entryWord (d : Depth) (b : Buf) {i : Nat} (hi : i < d.n) (dir : Dir) :
    mapAccess d.n { offset := b.base + BitVec.ofNat 32 (4 * i), bits := 32, dir := dir } = .ok (.entry b i) := by
  have hd := d.le
  have he := entryOffset_toNat (b := b) (i := i) (by omega)
  have hb := b.base_toNat
  have ha : (b.base + BitVec.ofNat 32 (4 * i)).toNat % 4 = 0 := by omega
  exact mapAccess_ok.2 ⟨rfl, ha, (locAt_entry hd ha).2 ⟨hi, he⟩⟩

theorem mapAccess_entry_lt {d : Depth} {a : Access} {b : Buf} {i : Nat} (h : mapAccess d.n a = .ok (.entry b i)) :
    i < d.n := by
  obtain ⟨-, h2, h3⟩ := mapAccess_ok.1 h
  exact ((locAt_entry d.le h2).1 h3).1

/-- A read at a register's offset. -/
theorem hostAccess_readReg (r : Reg) (s : State) : hostAccess (.readWord r.offset) s = readLoc (.reg r) s := by
  simp only [hostAccess, Access.readWord, mapAccess_regWord]

/-- A write at a register's offset. -/
theorem hostAccess_writeReg (r : Reg) (d : Word) (s : State) :
    hostAccess (.writeWord r.offset d) s = writeLoc (.reg r) d { s with answer := .okay } := by
  simp only [hostAccess, Access.writeWord, mapAccess_regWord]

/-- A read at an entry's offset. -/
theorem hostAccess_readEntry (b : Buf) {i : Nat} {s : State} (hi : i < s.nMax.n) :
    hostAccess (.readWord (b.base + BitVec.ofNat 32 (4 * i))) s = readLoc (.entry b i) s := by
  simp only [hostAccess, Access.readWord, mapAccess_entryWord s.nMax b hi]

/-- A write at an entry's offset. -/
theorem hostAccess_writeEntry (b : Buf) {i : Nat} (d : Word) {s : State} (hi : i < s.nMax.n) :
    hostAccess (.writeWord (b.base + BitVec.ofNat 32 (4 * i)) d) s = writeLoc (.entry b i) d { s with answer := .okay } := by
  simp only [hostAccess, Access.writeWord, mapAccess_entryWord s.nMax b hi]

/-- A read that answers changes only the answer and the count of draws. -/
theorem readLoc_next {l : Loc} {s t : State} (h : readLoc l s = .next t) :
    t = { s with answer := t.answer, draws := t.draws } := by
  have hd : ∀ {t}, readDefined l s = .next t → t = { s with answer := t.answer, draws := t.draws } := by
    intro t h
    unfold readDefined at h
    split at h
    · obtain rfl := Host.Outcome.next.inj h; rfl
    · split at h
      · obtain rfl := Host.Outcome.next.inj h; rfl
      · simp at h
  unfold readLoc at h
  split at h
  · exact hd h
  · split_ifs at h
    · obtain rfl := Host.Outcome.next.inj h; rfl
    · obtain rfl := Host.Outcome.next.inj h; rfl
    · exact hd h

/-- Everything a host access that answers can do: a read; SRESET; an acceptance; a dropped write; a write of CTRL; a write of
STATUS; or, while op = IDLE, a write of a command's input, which keeps the canonical form. -/
theorem hostAccess_next {a : Access} {s t : State} (h : hostAccess a s = .next t) :
    (a.dir = .read ∧ t = { s with answer := t.answer, draws := t.draws }) ∨
    (a = .writeWord 0x0C#32 0x0000000F#32 ∧ execSreset { s with answer := .okay } = .next t) ∨
    (∃ w, s.op = .idle ∧ w ≠ 0x0000000F#32 ∧ a = .writeWord 0x0C#32 w ∧ t = accept w { s with answer := .okay }) ∨
    (∃ d, s.op = .busy ∧ a.dir = .write d ∧ t = { s with bwe := true, answer := .okay }) ∨
    (∃ d : Word, a = .writeWord 0x08#32 d ∧ t = { s with irqEn := d[0], answer := .okay }) ∨
    (∃ d, a = .writeWord 0x10#32 d ∧ t = clearStatus d { s with answer := .okay }) ∨
    (∃ d, s.op = .idle ∧ a.dir = .write d ∧ (s.mem.wf s.nMax.n → t.mem.wf t.nMax.n) ∧
      t = { s with answer := .okay, width := t.width, height := t.height, msgLen := t.msgLen, pixA := t.pixA,
                   byteA := t.byteA, mem := { s.mem with imgIn := t.mem.imgIn, msgIn := t.mem.msgIn } }) := by
  unfold hostAccess at h
  split at h
  · simp at h
  next l hl =>
    split at h
    next hdir => exact .inl ⟨hdir, readLoc_next h⟩
    next d hdir =>
      refine .inr ?_
      have hreg : ∀ r, l = .reg r → a = .writeWord r.offset d := by
        rintro r rfl
        obtain ⟨h1, h2⟩ := mapAccess_reg hl
        cases a
        simp_all [Access.writeWord]
      have hin : ∀ w : State, writeInput { s with answer := .okay } w = .next t →
          (s.mem.wf s.nMax.n → w.mem.wf w.nMax.n) →
          w = { s with answer := .okay, width := w.width, height := w.height, msgLen := w.msgLen, pixA := w.pixA,
                       byteA := w.byteA, mem := { s.mem with imgIn := w.mem.imgIn, msgIn := w.mem.msgIn } } →
          (∃ d, s.op = .busy ∧ a.dir = .write d ∧ t = { s with bwe := true, answer := .okay }) ∨
          (∃ d, s.op = .idle ∧ a.dir = .write d ∧ (s.mem.wf s.nMax.n → t.mem.wf t.nMax.n) ∧
            t = { s with answer := .okay, width := t.width, height := t.height, msgLen := t.msgLen, pixA := t.pixA,
                         byteA := t.byteA, mem := { s.mem with imgIn := t.mem.imgIn, msgIn := t.mem.msgIn } }) := by
        intro w hw hwf he
        unfold writeInput at hw
        split at hw
        next hop =>
          obtain rfl := Host.Outcome.next.inj hw
          exact .inr ⟨d, hop, hdir, hwf, he⟩
        next hop =>
          obtain rfl := Host.Outcome.next.inj hw
          exact .inl ⟨d, hop, hdir, rfl⟩
      have pick : ∀ {A B C D E F : Prop}, C ∨ F → A ∨ B ∨ C ∨ D ∨ E ∨ F := by tauto
      unfold writeLoc at h
      split at h <;> try (simp at h)
      · exact .inr (.inr (.inr (.inl ⟨d, hreg _ rfl, h.symm⟩)))
      · have ha := hreg _ rfl
        unfold offerCommand at h
        split_ifs at h with hw
        · subst hw
          exact .inl ⟨ha, h⟩
        · split at h
          next hop => exact .inr (.inl ⟨d, hop, hw, ha, (Host.Outcome.next.inj h).symm⟩)
          next hop => exact .inr (.inr (.inl ⟨d, hop, hdir, (Host.Outcome.next.inj h).symm⟩))
      · exact .inr (.inr (.inr (.inr (.inl ⟨d, hreg _ rfl, h.symm⟩))))
      · exact pick (hin _ h id rfl)
      · exact pick (hin _ h id rfl)
      · exact pick (hin _ h id rfl)
      · exact pick (hin _ h id rfl)
      · exact pick (hin _ h id rfl)
      · exact pick (hin _ h (fun hw => ⟨Store.wf_write _ hw.1 (mapAccess_entry_lt hl), hw.2⟩) rfl)
      · exact pick (hin _ h (fun hw => ⟨hw.1, hw.2.1, Store.wf_write _ hw.2.2.1 (mapAccess_entry_lt hl), hw.2.2.2⟩) rfl)

/-- A host access never refuses. -/
theorem hostAccess_not_refused (a : Access) (s : State) (r : Refusal) : hostAccess a s ≠ .refused r := by
  intro h
  unfold hostAccess readLoc readDefined answerDrawn writeLoc offerCommand writeInput execSreset at h
  repeat' split at h
  all_goals simp_all

/-- A host access faults only by a bus error or by a read of an unwritten entry. -/
theorem hostAccess_fault {a : Access} {s : State} {f : Fault} (h : hostAccess a s = .fault f) :
    (∃ e, f = .busError e) ∨ ∃ b i, f = .hostReadUnwritten b i := by
  unfold hostAccess readLoc readDefined answerDrawn writeLoc offerCommand writeInput execSreset at h
  repeat' split at h
  all_goals first
    | exact .inl ⟨_, (Host.Outcome.fault.inj h).symm⟩
    | exact .inr ⟨_, _, (Host.Outcome.fault.inj h).symm⟩
    | (simp at h)

end Sys2Proof.Machine
end

