-- ==== Sys2Proof/Laws/State.lean ====
section
/-! SUPPORT. One lemma per field per named update of the state, true by rfl, so that no proof unfolds an update. -/

namespace Sys2Proof.Machine

@[simp] theorem complete_nMax (code : ErrCode) (s : State) : (complete code s).nMax = s.nMax := rfl
@[simp] theorem complete_irqEn (code : ErrCode) (s : State) : (complete code s).irqEn = s.irqEn := rfl
@[simp] theorem complete_done (code : ErrCode) (s : State) : (complete code s).done = true := rfl
@[simp] theorem complete_capOk (code : ErrCode) (s : State) : (complete code s).capOk = s.capOk := rfl
@[simp] theorem complete_bwe (code : ErrCode) (s : State) : (complete code s).bwe = s.bwe := rfl
@[simp] theorem complete_err (code : ErrCode) (s : State) : (complete code s).err = code := rfl
@[simp] theorem complete_width (code : ErrCode) (s : State) : (complete code s).width = s.width := rfl
@[simp] theorem complete_height (code : ErrCode) (s : State) : (complete code s).height = s.height := rfl
@[simp] theorem complete_msgLen (code : ErrCode) (s : State) : (complete code s).msgLen = s.msgLen := rfl
@[simp] theorem complete_resultLen (code : ErrCode) (s : State) : (complete code s).resultLen = s.resultLen := rfl
@[simp] theorem complete_pixA (code : ErrCode) (s : State) : (complete code s).pixA = s.pixA := rfl
@[simp] theorem complete_byteA (code : ErrCode) (s : State) : (complete code s).byteA = s.byteA := rfl
@[simp] theorem complete_pixR (code : ErrCode) (s : State) : (complete code s).pixR = s.pixR := rfl
@[simp] theorem complete_byteR (code : ErrCode) (s : State) : (complete code s).byteR = s.byteR := rfl
@[simp] theorem complete_op (code : ErrCode) (s : State) : (complete code s).op = .idle := rfl
@[simp] theorem complete_pend (code : ErrCode) (s : State) : (complete code s).pend = s.pend := rfl
@[simp] theorem complete_mem (code : ErrCode) (s : State) : (complete code s).mem = s.mem := rfl
@[simp] theorem complete_draws (code : ErrCode) (s : State) : (complete code s).draws = s.draws := rfl
@[simp] theorem complete_answer (code : ErrCode) (s : State) : (complete code s).answer = s.answer := rfl
@[simp] theorem complete_events (code : ErrCode) (s : State) : (complete code s).events = s.events := rfl
@[simp] theorem complete_program (code : ErrCode) (s : State) : (complete code s).program = s.program := rfl
@[simp] theorem complete_line (code : ErrCode) (s : State) : (complete code s).line = s.line := rfl
@[simp] theorem complete_temps (code : ErrCode) (s : State) : (complete code s).temps = s.temps := rfl

@[simp] theorem accept_nMax (w : Word) (s : State) : (accept w s).nMax = s.nMax := rfl
@[simp] theorem accept_irqEn (w : Word) (s : State) : (accept w s).irqEn = s.irqEn := rfl
@[simp] theorem accept_done (w : Word) (s : State) : (accept w s).done = false := rfl
@[simp] theorem accept_capOk (w : Word) (s : State) : (accept w s).capOk = s.capOk := rfl
@[simp] theorem accept_bwe (w : Word) (s : State) : (accept w s).bwe = s.bwe := rfl
@[simp] theorem accept_err (w : Word) (s : State) : (accept w s).err = .none := rfl
@[simp] theorem accept_width (w : Word) (s : State) : (accept w s).width = s.width := rfl
@[simp] theorem accept_height (w : Word) (s : State) : (accept w s).height = s.height := rfl
@[simp] theorem accept_msgLen (w : Word) (s : State) : (accept w s).msgLen = s.msgLen := rfl
@[simp] theorem accept_resultLen (w : Word) (s : State) : (accept w s).resultLen = s.resultLen := rfl
@[simp] theorem accept_pixA (w : Word) (s : State) : (accept w s).pixA = s.pixA := rfl
@[simp] theorem accept_byteA (w : Word) (s : State) : (accept w s).byteA = s.byteA := rfl
@[simp] theorem accept_pixR (w : Word) (s : State) : (accept w s).pixR = s.pixR := rfl
@[simp] theorem accept_byteR (w : Word) (s : State) : (accept w s).byteR = s.byteR := rfl
@[simp] theorem accept_op (w : Word) (s : State) : (accept w s).op = .busy := rfl
@[simp] theorem accept_pend (w : Word) (s : State) : (accept w s).pend = w := rfl
@[simp] theorem accept_mem (w : Word) (s : State) : (accept w s).mem = s.mem := rfl
@[simp] theorem accept_draws (w : Word) (s : State) : (accept w s).draws = s.draws := rfl
@[simp] theorem accept_answer (w : Word) (s : State) : (accept w s).answer = s.answer := rfl
@[simp] theorem accept_events (w : Word) (s : State) : (accept w s).events = s.events := rfl
@[simp] theorem accept_program (w : Word) (s : State) : (accept w s).program = s.program := rfl
@[simp] theorem accept_line (w : Word) (s : State) : (accept w s).line = s.line := rfl
@[simp] theorem accept_temps (w : Word) (s : State) : (accept w s).temps = s.temps := rfl

@[simp] theorem clearStatus_nMax (d : Word) (s : State) : (clearStatus d s).nMax = s.nMax := rfl
@[simp] theorem clearStatus_irqEn (d : Word) (s : State) : (clearStatus d s).irqEn = s.irqEn := rfl
@[simp] theorem clearStatus_done (d : Word) (s : State) : (clearStatus d s).done = (s.done && !d[1]) := rfl
@[simp] theorem clearStatus_capOk (d : Word) (s : State) : (clearStatus d s).capOk = s.capOk := rfl
@[simp] theorem clearStatus_bwe (d : Word) (s : State) : (clearStatus d s).bwe = (s.bwe && !d[3]) := rfl
@[simp] theorem clearStatus_err (d : Word) (s : State) : (clearStatus d s).err = s.err := rfl
@[simp] theorem clearStatus_width (d : Word) (s : State) : (clearStatus d s).width = s.width := rfl
@[simp] theorem clearStatus_height (d : Word) (s : State) : (clearStatus d s).height = s.height := rfl
@[simp] theorem clearStatus_msgLen (d : Word) (s : State) : (clearStatus d s).msgLen = s.msgLen := rfl
@[simp] theorem clearStatus_resultLen (d : Word) (s : State) : (clearStatus d s).resultLen = s.resultLen := rfl
@[simp] theorem clearStatus_pixA (d : Word) (s : State) : (clearStatus d s).pixA = s.pixA := rfl
@[simp] theorem clearStatus_byteA (d : Word) (s : State) : (clearStatus d s).byteA = s.byteA := rfl
@[simp] theorem clearStatus_pixR (d : Word) (s : State) : (clearStatus d s).pixR = s.pixR := rfl
@[simp] theorem clearStatus_byteR (d : Word) (s : State) : (clearStatus d s).byteR = s.byteR := rfl
@[simp] theorem clearStatus_op (d : Word) (s : State) : (clearStatus d s).op = s.op := rfl
@[simp] theorem clearStatus_pend (d : Word) (s : State) : (clearStatus d s).pend = s.pend := rfl
@[simp] theorem clearStatus_mem (d : Word) (s : State) : (clearStatus d s).mem = s.mem := rfl
@[simp] theorem clearStatus_draws (d : Word) (s : State) : (clearStatus d s).draws = s.draws := rfl
@[simp] theorem clearStatus_answer (d : Word) (s : State) : (clearStatus d s).answer = s.answer := rfl
@[simp] theorem clearStatus_events (d : Word) (s : State) : (clearStatus d s).events = s.events := rfl
@[simp] theorem clearStatus_program (d : Word) (s : State) : (clearStatus d s).program = s.program := rfl
@[simp] theorem clearStatus_line (d : Word) (s : State) : (clearStatus d s).line = s.line := rfl
@[simp] theorem clearStatus_temps (d : Word) (s : State) : (clearStatus d s).temps = s.temps := rfl

@[simp] theorem resetRegisters_nMax (s : State) : (resetRegisters s).nMax = s.nMax := rfl
@[simp] theorem resetRegisters_irqEn (s : State) : (resetRegisters s).irqEn = false := rfl
@[simp] theorem resetRegisters_done (s : State) : (resetRegisters s).done = false := rfl
@[simp] theorem resetRegisters_capOk (s : State) : (resetRegisters s).capOk = false := rfl
@[simp] theorem resetRegisters_bwe (s : State) : (resetRegisters s).bwe = false := rfl
@[simp] theorem resetRegisters_err (s : State) : (resetRegisters s).err = .none := rfl
@[simp] theorem resetRegisters_width (s : State) : (resetRegisters s).width = 0#16 := rfl
@[simp] theorem resetRegisters_height (s : State) : (resetRegisters s).height = 0#16 := rfl
@[simp] theorem resetRegisters_msgLen (s : State) : (resetRegisters s).msgLen = 0#32 := rfl
@[simp] theorem resetRegisters_resultLen (s : State) : (resetRegisters s).resultLen = 0#32 := rfl
@[simp] theorem resetRegisters_pixA (s : State) : (resetRegisters s).pixA = 0#32 := rfl
@[simp] theorem resetRegisters_byteA (s : State) : (resetRegisters s).byteA = 0#8 := rfl
@[simp] theorem resetRegisters_pixR (s : State) : (resetRegisters s).pixR = 0#32 := rfl
@[simp] theorem resetRegisters_byteR (s : State) : (resetRegisters s).byteR = 0#8 := rfl
@[simp] theorem resetRegisters_op (s : State) : (resetRegisters s).op = .idle := rfl
@[simp] theorem resetRegisters_pend (s : State) : (resetRegisters s).pend = 0#32 := rfl
@[simp] theorem resetRegisters_mem (s : State) : (resetRegisters s).mem = s.mem := rfl
@[simp] theorem resetRegisters_draws (s : State) : (resetRegisters s).draws = s.draws := rfl
@[simp] theorem resetRegisters_answer (s : State) : (resetRegisters s).answer = s.answer := rfl
@[simp] theorem resetRegisters_events (s : State) : (resetRegisters s).events = s.events := rfl
@[simp] theorem resetRegisters_program (s : State) : (resetRegisters s).program = s.program := rfl
@[simp] theorem resetRegisters_line (s : State) : (resetRegisters s).line = s.line := rfl
@[simp] theorem resetRegisters_temps (s : State) : (resetRegisters s).temps = s.temps := rfl

@[simp] theorem hardwareReset_nMax (s : State) : (hardwareReset s).nMax = s.nMax := rfl
@[simp] theorem hardwareReset_irqEn (s : State) : (hardwareReset s).irqEn = false := rfl
@[simp] theorem hardwareReset_done (s : State) : (hardwareReset s).done = false := rfl
@[simp] theorem hardwareReset_capOk (s : State) : (hardwareReset s).capOk = false := rfl
@[simp] theorem hardwareReset_bwe (s : State) : (hardwareReset s).bwe = false := rfl
@[simp] theorem hardwareReset_err (s : State) : (hardwareReset s).err = .none := rfl
@[simp] theorem hardwareReset_width (s : State) : (hardwareReset s).width = 0#16 := rfl
@[simp] theorem hardwareReset_height (s : State) : (hardwareReset s).height = 0#16 := rfl
@[simp] theorem hardwareReset_msgLen (s : State) : (hardwareReset s).msgLen = 0#32 := rfl
@[simp] theorem hardwareReset_resultLen (s : State) : (hardwareReset s).resultLen = 0#32 := rfl
@[simp] theorem hardwareReset_pixA (s : State) : (hardwareReset s).pixA = 0#32 := rfl
@[simp] theorem hardwareReset_byteA (s : State) : (hardwareReset s).byteA = 0#8 := rfl
@[simp] theorem hardwareReset_pixR (s : State) : (hardwareReset s).pixR = 0#32 := rfl
@[simp] theorem hardwareReset_byteR (s : State) : (hardwareReset s).byteR = 0#8 := rfl
@[simp] theorem hardwareReset_op (s : State) : (hardwareReset s).op = .idle := rfl
@[simp] theorem hardwareReset_pend (s : State) : (hardwareReset s).pend = 0#32 := rfl
@[simp] theorem hardwareReset_mem (s : State) : (hardwareReset s).mem = .unwritten := rfl
@[simp] theorem hardwareReset_draws (s : State) : (hardwareReset s).draws = s.draws := rfl
@[simp] theorem hardwareReset_answer (s : State) : (hardwareReset s).answer = s.answer := rfl
@[simp] theorem hardwareReset_events (s : State) : (hardwareReset s).events = s.events := rfl
@[simp] theorem hardwareReset_program (s : State) : (hardwareReset s).program = s.program := rfl
@[simp] theorem hardwareReset_line (s : State) : (hardwareReset s).line = s.line := rfl
@[simp] theorem hardwareReset_temps (s : State) : (hardwareReset s).temps = s.temps := rfl

@[simp] theorem resetWith_nMax (d : Depth) : (State.resetWith d).nMax = d := rfl
@[simp] theorem resetWith_op (d : Depth) : (State.resetWith d).op = .idle := rfl
@[simp] theorem resetWith_done (d : Depth) : (State.resetWith d).done = false := rfl
@[simp] theorem resetWith_irqEn (d : Depth) : (State.resetWith d).irqEn = false := rfl
@[simp] theorem resetWith_mem (d : Depth) : (State.resetWith d).mem = .unwritten := rfl

end Sys2Proof.Machine
end

