-- ==== Sys2Proof/Laws/Step.lean ====
section
/-! SUPPORT. Everything a step that answers a next state can do: a turn of the port, of the host's program, of the engine, or the reset input. -/

namespace Sys2Proof.Machine

/-- The state in which a turn is taken: the scheduled event, if any, taken off. -/
def State.popped (s : State) : State := { s with events := s.events.tail }

theorem State.popped_of_nil {s : State} (h : s.events = []) : s.popped = s := by
  unfold State.popped
  rw [h]
  cases s
  simp_all

/-- The turns of a step. -/
theorem step_cases {s : State} {r : Result} (h : step s = r) :
    (∃ a, hostAccess a s.popped = r) ∨ hostLine s.popped = r ∨ engineTurn s.popped = r ∨
    r = .next (hardwareReset s.popped) := by
  unfold step at h
  split at h
  next he =>
    rw [State.popped_of_nil he]
    unfold defaultTurn at h
    split at h
    · exact .inr (.inr (.inl h))
    · exact .inr (.inl h)
  next e rest he =>
    have hp : { s with events := rest } = s.popped := by unfold State.popped; rw [he]; rfl
    rw [hp] at h
    cases e with
    | access a => exact .inl ⟨a, h⟩
    | line => exact .inr (.inl h)
    | engine => exact .inr (.inr (.inl h))
    | hwReset => exact .inr (.inr (.inr h.symm))

/-- The engine's turn: nothing while IDLE; while BUSY a completion of the decoded command or of an illegal word (R185, R186). -/
theorem engineTurn_next {s t : State} (h : engineTurn s = .next t) :
    (s.op = .idle ∧ t = s) ∨
    (s.op = .busy ∧ (∃ r, decode s.pend = .error r) ∧ t = complete .illegalCmd s) ∨
    (s.op = .busy ∧ ∃ i, decode s.pend = .ok i ∧ i ≠ .sreset ∧ exec i s = .next t) := by
  unfold engineTurn at h
  split at h
  next hop =>
    refine .inr ?_
    unfold completePending at h
    split at h
    next r hr => exact .inl ⟨hop, ⟨r, hr⟩, (Host.Outcome.next.inj h).symm⟩
    next i hi =>
      split_ifs at h with hs
      · exact .inr ⟨hop, i, hi, hs, h⟩
  next hop => exact .inl ⟨hop, (Host.Outcome.next.inj h).symm⟩

/-- A line of the host's program: one port access, with its data perhaps kept in a temporary, or a move of its position (R98). -/
theorem runLine_next {l : HostLine} {s t : State} (h : runLine l s = .next t) :
    (∃ a u, hostAccess a s = .next u ∧ (t = u ∨ ∃ k v, t = { u with temps := u.temps.write k v })) ∨
    ∃ k, t = { s with line := k } := by
  cases l with
  | wr loc v =>
    simp only [runLine] at h
    split at h
    · simp at h
    · exact .inl ⟨_, t, h, .inl rfl⟩
  | rd loc k =>
    simp only [runLine] at h
    split at h
    next u hu =>
      obtain rfl := Host.Outcome.next.inj h
      refine .inl ⟨_, u, hu, ?_⟩
      unfold storeTemp
      split
      · exact .inr ⟨_, _, rfl⟩
      all_goals exact .inl rfl
    all_goals simp at h
  | label l => exact .inr ⟨s.line, (Host.Outcome.next.inj h).symm⟩
  | ifGoto k f v l =>
    simp only [runLine] at h
    split at h
    · simp at h
    · split_ifs at h
      · split at h
        next p _ => exact .inr ⟨p, (Host.Outcome.next.inj h).symm⟩
        · simp at h
      · exact .inr ⟨s.line, (Host.Outcome.next.inj h).symm⟩
  | expect e =>
    simp only [runLine] at h
    split at h
    · simp at h
    · exact .inr ⟨s.line, (Host.Outcome.next.inj h).symm⟩
    · simp at h

/-- The host's turn. -/
theorem hostLine_next {s t : State} (h : hostLine s = .next t) :
    (∃ a n u, hostAccess a { s with line := n } = .next u ∧ (t = u ∨ ∃ k v, t = { u with temps := u.temps.write k v })) ∨
    ∃ k, t = { s with line := k } := by
  unfold hostLine at h
  split at h
  · rcases runLine_next h with ⟨a, u, hu⟩ | ⟨k, rfl⟩
    · exact .inl ⟨a, _, u, hu⟩
    · exact .inr ⟨k, rfl⟩
  · exact .inr ⟨s.line, (Host.Outcome.next.inj h).symm⟩

/-- The host's turn faults by its access or by its check only. -/
theorem hostLine_fault {s : State} {f : Fault} (h : hostLine s = .fault f) :
    (∃ a u, hostAccess a u = .fault f) ∨ ∃ e, f = .expectFailed e := by
  unfold hostLine at h
  split at h
  next l _ =>
    cases l with
    | wr loc v =>
      simp only [runLine] at h
      split at h
      · simp at h
      · exact .inl ⟨_, _, h⟩
    | rd loc k =>
      simp only [runLine] at h
      split at h
      · simp at h
      next hu => exact .inl ⟨_, _, hu.trans (by rw [Host.Outcome.fault.inj h])⟩
      · simp at h
    | label l => simp [runLine] at h
    | ifGoto k f v l =>
      simp only [runLine] at h
      repeat' split at h
      all_goals simp at h
    | expect e =>
      simp only [runLine] at h
      split at h
      · simp at h
      · simp at h
      · exact .inr ⟨e, (Host.Outcome.fault.inj h).symm⟩
  · simp at h

end Sys2Proof.Machine
end

