-- ==== Sys2Proof/Tests/Slice0.lean ====
section
/-! SUPPORT. The model's own tests. Expected values are those of spec/95_test_vectors.md (its ids are named) or of the encoding of
spec/30_encoding.md. After them, for each statement with hypotheses, a state and operands that meet them all. -/

namespace Sys2Proof.Tests

open Sys2Proof Sys2Proof.Machine

/-! ## Small states -/

def depth4 : Depth := { n := 4, pos := by decide, le := by decide }
def depth6 : Depth := { n := 6, pos := by decide, le := by decide }
def depth8 : Depth := { n := 8, pos := by decide, le := by decide }

/-- An idle block after reset. -/
def idle4 : State := State.resetWith depth4

/-- The dimensions and the message length written. -/
def sized (s : State) (w h : Dim) (l : Word) : State := { s with width := w, height := h, msgLen := l }

/-- The image of E1, in storage order. -/
def imageE1 : Store Word := [(0, 0x80402010#32), (1, 0xFFFFFFFF#32), (2, 0x12345678#32), (3, 0xA5A5A5A5#32)]

/-- Before the EMBED of E1: "Hi" and its 2 by 2 image. -/
def beforeHi : State :=
  { sized idle4 2#16 2#16 2#32 with
    mem := { imgIn := imageE1, imgOut := [], msgIn := [(0, 0x48#8), (1, 0x69#8)], msgOut := [] } }

/-- A 2 by 2 image of zeros and the message [41, 00, 42, 43] of EM10. -/
def beforeZero : State :=
  { sized idle4 2#16 2#16 4#32 with
    mem := { imgIn := [(0, 0#32), (1, 0#32), (2, 0#32), (3, 0#32)], imgOut := [],
             msgIn := [(0, 0x41#8), (1, 0x00#8), (2, 0x42#8), (3, 0x43#8)], msgOut := [] } }

/-- The same with the message [41, 42, 00] (X8, one byte shorter): no column after the zero's holds a byte. -/
def beforeTruncated : State :=
  { beforeZero with msgLen := 3#32, mem := { beforeZero.mem with msgIn := [(0, 0x41#8), (1, 0x42#8), (2, 0x00#8)] } }

/-- The BUSY window of the command word `w`. -/
def window (w : Word) (s : State) : State := accept w s

/-- A value of the next state, where there is one. -/
def after {α : Type} (f : State → α) (r : Result) : Option α :=
  match r with
  | .next s => some (f s)
  | .fault _ => none
  | .refused _ => none

/-- The bus error an access answered with, where it did. -/
def busErrorOf (r : Result) : Option BusError :=
  match r with
  | .fault (.busError e) => some e
  | .fault (.hostReadUnwritten _ _) => none
  | .fault (.engineReadUnwritten _ _) => none
  | .fault .sresetPending => none
  | .fault (.expectFailed _) => none
  | .next _ => none
  | .refused _ => none

/-- The name under which the decoder rejects a word, where it does. -/
def rejection (w : Word) : Option Illegal :=
  match decode w with
  | .ok _ => none
  | .error r => some r

/-- What STATUS reads in an idle state. -/
def statusOf (s : State) : Word := readReg .status s

/-- The outcome of a check, where it has one. -/
def holds? (e : Expectation) (s : State) : Option Bool := (e.holds s).toOption

/-! ## WellFormed refuses ill-formed terms -/

theorem test_smoke_rsv : CommandWord.rsvZero 0x20#32 = false ∧ CommandWord.wf 0x80000003#32 = false := by decide
theorem test_smoke_op : CommandWord.opKnown 0x6#32 = false ∧ CommandWord.opKnown 0xE#32 = false ∧ CommandWord.wf 0x6#32 = false := by
  decide
theorem test_smoke_select : CommandWord.selectFits 0x10#32 = false ∧ CommandWord.wf 0x1F#32 = false := by decide
theorem test_smoke_legal :
    [0x0#32, 0x1#32, 0x2#32, 0x3#32, 0x13#32, 0x4#32, 0x5#32, 0xF#32].all CommandWord.wf = true := by decide
theorem test_smoke_instr : [Instr.nop, .capchk, .embed, .extract false, .extract true, .pack, .unpack, .sreset].all Instr.wf = true := by
  decide
theorem test_smoke_label_twice : HostProgram.wf [.label 1, .label 1] = false := by decide
theorem test_smoke_label_missing :
    HostLine.gotoKnown [0] (.ifGoto 0 doneField 0#32 7) = false ∧
    HostProgram.wf [.rd (.reg .status) 0, .ifGoto 0 doneField 0#32 7] = false := by decide
theorem test_smoke_temp_unset :
    HostLine.tempsSet [] (.expect (.field 0 doneField 1#32)) = false ∧ HostProgram.wf [.wr (.reg .pixA) (.temp 0)] = false ∧
    HostProgram.wf [.label 7, .ifGoto 0 doneField 0#32 7] = false := by decide
theorem test_smoke_entry_name :
    HostProgram.wf [.wr (.entry .imgIn 0x400000) (.lit 0#32)] = false ∧ HostProgram.wf [.rd (.entry .msgOut 0x3F400000) 0] = false ∧
    HostProgram.wf [.expect (.neg (.entry .msgOut 0x400000 none))] = false ∧ HostProgram.wf [.rd (.entry .msgOut 0x3FFFFF) 0] = true := by
  decide
theorem test_smoke_expect_temp :
    HostProgram.wf [.expect (.both (.op .idle) (.field 0 doneField 1#32))] = false ∧
    HostProgram.wf [.rd (.reg .status) 0, .expect (.neg (.field 0 doneField 1#32))] = true := by decide
theorem test_smoke_host_legal : HostProgram.wf (pseudoLoad .msgIn [0x48#32] ++ pseudoRun .embed 0 0 ++ pseudoAck) = true := by decide

/-! ## Decoding: words written out from R90, RSV then S then OP -/

theorem test_decode_nop : (decode (0b000000000000000000000000000#27 ++ 0b0#1 ++ 0b0000#4)).toOption = some .nop := by decide
theorem test_decode_capchk : (decode (0b000000000000000000000000000#27 ++ 0b0#1 ++ 0b0001#4)).toOption = some .capchk := by decide
theorem test_decode_embed : (decode (0b000000000000000000000000000#27 ++ 0b0#1 ++ 0b0010#4)).toOption = some .embed := by decide
theorem test_decode_extract_in :
    (decode (0b000000000000000000000000000#27 ++ 0b0#1 ++ 0b0011#4)).toOption = some (.extract false) := by decide
theorem test_decode_extract_out :
    (decode (0b000000000000000000000000000#27 ++ 0b1#1 ++ 0b0011#4)).toOption = some (.extract true) := by decide
theorem test_decode_pack : (decode (0b000000000000000000000000000#27 ++ 0b0#1 ++ 0b0100#4)).toOption = some .pack := by decide
theorem test_decode_unpack : (decode (0b000000000000000000000000000#27 ++ 0b0#1 ++ 0b0101#4)).toOption = some .unpack := by decide
theorem test_decode_sreset : (decode (0b000000000000000000000000000#27 ++ 0b0#1 ++ 0b1111#4)).toOption = some .sreset := by decide
/-- The illegal words of IL1 to IL8. -/
theorem test_decode_rejects :
    rejection 0x6#32 = some .reservedOpcode ∧ rejection 0xE#32 = some .reservedOpcode ∧
    rejection 0x10#32 = some .straySelect ∧ rejection 0x12#32 = some .straySelect ∧ rejection 0x1F#32 = some .straySelect ∧
    rejection 0x23#32 = some .reservedBits ∧ rejection 0x80000003#32 = some .reservedBits ∧
    rejection 0xFFFFFFFF#32 = some .reservedBits := by decide
theorem test_encode_words :
    [Instr.nop, .capchk, .embed, .extract false, .extract true, .pack, .unpack, .sreset].map encode =
      [0x0#32, 0x1#32, 0x2#32, 0x3#32, 0x13#32, 0x4#32, 0x5#32, 0xF#32] := by decide
theorem test_decode_table :
    decodeTableWord 32 0x13 = some (.extract true) ∧ decodeTableWord 32 0x6 = none ∧ decodeTableWord 40 0x100000001 = none := by
  decide

/-! ## The datapath -/

/-- DP1 to DP8. -/
theorem test_lsb_fields :
    lsb2 0xA5#8 = 1#2 ∧ hi6 0xA5#8 = 0xA4#8 ∧ slice 0x11365679#32 = (1#2, 2#2, 2#2, 1#2) ∧ setlsb2 0x20#8 2#2 = 0x22#8 ∧
    setlsb2 0xFF#8 3#2 = 0xFF#8 ∧ setlsb2 0x03#8 0#2 = 0x00#8 ∧ [0, 1, 2, 3].map (group 0x48#8) = [0#2, 2#2, 0#2, 1#2] := by
  decide
/-- DP10, DP14, DP17, DP20. -/
theorem test_pack_vectors :
    pack 0x12345678#32 0x69#8 = 0x11365679#32 ∧ pack 0xDEADBEEF#32 0xA5#8 = 0xDEAEBDED#32 ∧
    pack 0x00000000#32 0x80#8 = 0x02000000#32 ∧ pack 0xFCFCFCFC#32 0xE4#8 = 0xFFFEFDFC#32 := by decide
/-- DP24, DP26, DP28, DP32. -/
theorem test_unpack_vectors :
    unpack 0xFFFFFFFC#32 = 0xFC#8 ∧ unpack 0x00000300#32 = 0x0C#8 ∧ unpack 0xDEADBEEF#32 = 0x9B#8 ∧
    unpack 0x02010302#32 = 0x9E#8 := by decide

/-! ## The commands -/

/-- NP2. -/
theorem test_nop_keeps_capOk : after statusOf (exec .nop { idle4 with capOk := true }) = some 0x6#32 := by decide
/-- CC1, CC2. -/
theorem test_capchk_boundary :
    after statusOf (exec .capchk (sized idle4 2#16 2#16 4#32)) = some 0x6#32 ∧
    after statusOf (exec .capchk (sized idle4 2#16 2#16 5#32)) = some 0x2#32 := by decide
/-- CC6, CC7. -/
theorem test_capchk_largest :
    after statusOf (exec .capchk (sized idle4 0xFFFF#16 0xFFFF#16 0xFFFE0001#32)) = some 0x6#32 ∧
    after statusOf (exec .capchk (sized idle4 0xFFFF#16 0xFFFF#16 0xFFFE0002#32)) = some 0x2#32 ∧
    readReg .capacity (sized idle4 0xFFFF#16 0xFFFF#16 0#32) = 0xFFFE0001#32 := by decide
/-- EM1. -/
theorem test_embed_hi :
    after (fun t => (t.mem.imgOut, t.resultLen, statusOf t)) (exec .embed beforeHi) =
      some ([(0, 0x81402210#32), (1, 0xFCFCFCFC#32), (2, 0x11365679#32), (3, 0xA4A4A4A4#32)], 2#32, 0x6#32) := by decide
/-- EM8, EM9: BAD_DIM comes before CAPACITY, and CAP_OK is written. -/
theorem test_embed_badDim_first :
    after statusOf (exec .embed (sized (State.resetWith depth8) 4#16 4#16 1#32)) = some 0x206#32 ∧
    after statusOf (exec .embed (sized (State.resetWith depth8) 4#16 4#16 20#32)) = some 0x202#32 := by decide
/-- X13: the source image is IMG_IN, and each column ends by itself. -/
theorem test_extract_in_columns :
    after (fun t => (t.mem.msgOut, t.resultLen))
      (exec (.extract false) { sized idle4 2#16 2#16 0#32 with
        mem := { idle4.mem with imgIn := [(0, 0x01000000#32), (1, 0x00000300#32), (2, 0#32), (3, 0x02010302#32)] } }) =
      some ([(0, 0x40#8), (1, 0x0C#8), (2, 0x9E#8)], 3#32) := by decide
/-- X14: from IMG_OUT, with stale bytes of MSG_OUT kept. -/
theorem test_extract_out_stale :
    after (fun t => (t.mem.msgOut, t.resultLen))
      (exec (.extract true) { sized idle4 2#16 2#16 0#32 with
        mem := { idle4.mem with
          imgOut := [(0, 0x01000001#32), (1, 0#32), (2, 0x01000002#32), (3, 0x01000003#32)],
          msgOut := [(0, 0x41#8), (1, 0x42#8), (2, 0x43#8), (3, 0x44#8)] } }) =
      some ([(0, 0x41#8), (1, 0x42#8), (2, 0x43#8), (3, 0x44#8)], 2#32) := by decide
/-- PK1. -/
theorem test_pack_writes_pixR :
    after (fun t => (t.pixR, statusOf t)) (exec .pack { idle4 with pixA := 0xDEADBEEF#32, byteA := 0xA5#8 }) =
      some (0xDEAEBDED#32, 0x2#32) := by decide
/-- UP1, UP2. -/
theorem test_unpack_writes_byteR :
    after (readReg .byteR) (exec .unpack { idle4 with pixA := 0x81402210#32 }) = some 0x48#32 ∧
    after (readReg .byteR) (exec .unpack { idle4 with pixA := 0xFCFCFCFC#32 }) = some 0x100#32 := by decide
/-- SR1 and R191: an abort unwrites the output of the command in progress, and no other. -/
theorem test_sreset_aborts :
    after (fun t => (t.mem.imgOut, t.mem.msgOut, t.width, t.op))
      (exec .sreset (window 0x2#32 { beforeHi with
        mem := { beforeHi.mem with imgOut := [(0, 5#32), (3, 6#32)], msgOut := [(1, 7#8)] } })) =
      some ([], [(1, 7#8)], 0#16, .idle) := by decide
/-- SR2. -/
theorem test_sreset_clears_bwe :
    after (fun t => (t.bwe, t.pixR)) (exec .sreset { idle4 with bwe := true, pixR := 0xDEAEBDED#32 }) = some (false, 0#32) := by
  decide
/-- IL9. -/
theorem test_illegal_word : after statusOf (engineTurn (window 0x1F#32 { idle4 with capOk := true })) = some 0x306#32 := by decide

/-! ## The port -/

/-- BE1 to BE13. -/
theorem test_bus_errors :
    busErrorOf (hostAccess (.readWord 0x38#32) idle4) = some .unmapped ∧
    busErrorOf (hostAccess (.writeWord 0x00#32 0#32) idle4) = some .readOnly ∧
    busErrorOf (hostAccess { offset := 0x10#32, bits := 8, dir := .read } idle4) = some .badSize ∧
    busErrorOf (hostAccess (.readWord 0x12#32) idle4) = some .misaligned ∧
    busErrorOf (hostAccess (.writeWord 0x0400000C#32 0#32) idle4) = some .readOnly ∧
    busErrorOf (hostAccess (.readWord 0x01000010#32) idle4) = some .unmapped ∧
    busErrorOf (hostAccess (.readWord 0x09000000#32) idle4) = some .unmapped ∧
    busErrorOf (hostAccess { offset := 0x15#32, bits := 16, dir := .write 0#32 } idle4) = some .badSize ∧
    busErrorOf (hostAccess (.writeWord 0x02000000#32 0#32) (window 0x2#32 idle4)) = some .readOnly := by decide
/-- HS3, HS6. -/
theorem test_window_writes :
    after (fun t => (t.width, t.bwe, t.answer)) (hostAccess (.writeWord 0x14#32 5#32) (window 0x1#32 idle4)) =
      some (0#16, true, .okay) ∧
    after (fun t => (t.irqEn, t.bwe)) (hostAccess (.writeWord 0x08#32 1#32) (window 0x1#32 idle4)) = some (true, false) := by
  decide
/-- HS11. -/
theorem test_status_write :
    after statusOf (hostAccess (.writeWord 0x10#32 0xFFFFFFFF#32)
      { idle4 with done := true, bwe := true, capOk := true, err := .capacity }) = some 0x104#32 := by decide
/-- CC10, PK7. -/
theorem test_reserved_bits_ignored :
    after (readReg .width) (hostAccess (.writeWord 0x14#32 0x12340003#32) idle4) = some 0x3#32 ∧
    after (readReg .byteA) (hostAccess (.writeWord 0x2C#32 0x1FF#32) idle4) = some 0xFF#32 := by decide

/-! ## The step -/

/-- A table word placed after reset runs as the next step: PACK and SRESET. -/
theorem test_placed_word_runs :
    after (fun t => (statusOf t, t.pend)) (step (State.reset.withFetchWord 32 0x4)) = some (0x2#32, 0x4#32) ∧
    after (fun t => (statusOf t, t.byteR)) (step (State.withFetchWord { State.reset with byteR := 1#8 } 32 0xF)) =
      some (0#32, 0#8) := by decide
/-- P3 line 5: a temporary is written; R99: `wait_done` goes back while DONE = 0. -/
theorem test_host_lines :
    after (fun t => (t.pixA, t.line)) (hostLine { idle4 with program := [.wr (.reg .pixA) (.temp 1)], temps := [(1, 9#32)] }) =
      some (9#32, 1) ∧
    after (fun t => t.line) (hostLine { idle4 with program := pseudoWaitDone 3 1, line := 2, temps := [(1, 0#32)] }) = some 0 := by
  decide

/-- The expectations of EM1's row, checked on the state with no access; one that differs in a bit fails. -/
theorem test_expect_checks_state :
    after (fun t => [
      .reg .status { hi := 31, lo := 0 } 0x6#32, .reg .resultLen { hi := 31, lo := 0 } 2#32, .op .idle, .pend 0x2#32,
      .entry .imgOut 3 (some 0xA4A4A4A4#32), .entry .msgOut 0 none, .neg (.entry .imgOut 3 (some 0xA5A5A5A5#32))].all fun e => holds? e t == some true)
      (exec .embed (window 0x2#32 beforeHi)) = some true := by decide

/-! ## Witnesses: for each statement with hypotheses, values that meet them, at the boundaries where there are ranges -/

theorem witness_DecodeOfEveryWord : 0x6#32 ∉ [0x0#32, 0x1#32, 0x2#32, 0x3#32, 0x13#32, 0x4#32, 0x5#32, 0xF#32] := by decide

/-- One word for each way to be illegal: the least RSV bit, both ends of the reserved opcodes, S with OP = 0. -/
theorem witness_IllegalWordsByField :
    (0x20#32).extractLsb' 5 27 ≠ 0#27 ∧ ((0x6#32).extractLsb' 0 4).toNat = 0x6 ∧ ((0xE#32).extractLsb' 0 4).toNat = 0xE ∧
    (0x10#32)[4] = true ∧ (0x10#32).extractLsb' 0 4 ≠ 3#4 := by decide

theorem witness_BuffersUnwrittenAfterReset :
    (∃ t, step { beforeHi with events := [.hwReset] } = .next t ∧ 3 < t.nMax.n) ∧ 3 < depth4.n := ⟨⟨_, rfl, by decide⟩, by decide⟩

theorem witness_SoftResetMatchesHardwareReset :
    beforeHi.op = .idle ∧ beforeHi.mem ≠ .unwritten ∧ (window 0x2#32 beforeHi).op = .busy := by decide

/-- Each reason at the ends of its ranges, for N_MAX = 4. -/
theorem witness_BusErrorExactly :
    busErrorOf (hostAccess { offset := 0x14#32, bits := 16, dir := .read } idle4) = some .badSize ∧
    [0x1#32, 0x2#32, 0x3#32].map (fun a => busErrorOf (hostAccess (.readWord a) idle4)) =
      [some .misaligned, some .misaligned, some .misaligned] ∧
    [0x38#32, 0x00FFFFFC#32, 0x01000010#32, 0x04FFFFFC#32, 0x05000000#32, 0xFFFFFFFC#32].map
      (fun a => busErrorOf (hostAccess (.readWord a) idle4)) =
      [some .unmapped, some .unmapped, some .unmapped, some .unmapped, some .unmapped, some .unmapped] ∧
    [0x00#32, 0x04#32, 0x20#32, 0x24#32, 0x30#32, 0x34#32, 0x02000000#32, 0x0200000C#32, 0x04000000#32, 0x0400000C#32].all
      (fun a => busErrorOf (hostAccess (.writeWord a 0#32) idle4) == some .readOnly) = true ∧
    busErrorOf (hostAccess (.readWord 0x34#32) idle4) = none := by decide

/-- The first and the last entry of a window of 4. -/
theorem witness_WindowOffsetsSelectEntries :
    Buf.msgOut.base + BitVec.ofNat 32 (4 * 0) = 0x04000000#32 ∧ Buf.msgOut.base + BitVec.ofNat 32 (4 * 3) = 0x0400000C#32 ∧
    3 < depth4.n := by decide

theorem witness_BusErrorLeavesCommandInProgress :
    (window 0x2#32 beforeHi).op = .busy ∧
    step { window 0x2#32 beforeHi with events := [.access (.readWord 0x38#32), .engine] } = .fault (.busError .unmapped) :=
  ⟨rfl, rfl⟩

/-- A written and an unwritten entry of each buffer, while op = IDLE. -/
theorem witness_ReadsReturnTheirValues :
    let s := { beforeHi with mem := { beforeHi.mem with imgIn := [(3, 6#32)], imgOut := [(3, 7#32)], msgOut := [(3, 8#8)] } }
    s.op = .idle ∧ 3 < s.nMax.n ∧ s.mem.imgIn.read 3 = some 6#32 ∧ s.mem.imgIn.read 0 = none ∧
    s.mem.imgOut.read 3 = some 7#32 ∧ s.mem.imgOut.read 0 = none ∧ s.mem.msgIn.read 0 = some 0x48#8 ∧
    s.mem.msgIn.read 3 = none ∧ s.mem.msgOut.read 3 = some 8#8 ∧ s.mem.msgOut.read 0 = none := by decide

/-- The state before E1 meets the invariant, idle and in the window. -/
theorem inv_beforeHi : beforeHi.Inv :=
  { memWf := by decide, doneIdle := by decide, busyErr := by decide, busyPend := by decide, resultBound := by decide,
    capacityErr := by decide, msgOutNoZero := by decide, tempsSorted := by decide }
theorem inv_window : (window 0x2#32 beforeHi).Inv :=
  { memWf := by decide, doneIdle := by decide, busyErr := by decide, busyPend := by decide, resultBound := by decide,
    capacityErr := by decide, msgOutNoZero := by decide, tempsSorted := by decide }

theorem witness_OutputsReadFreeWhileBusy : (window 0x2#32 beforeHi).Inv ∧ (window 0x2#32 beforeHi).op = .busy ∧
    3 < (window 0x2#32 beforeHi).nMax.n := ⟨inv_window, by decide, by decide⟩

theorem witness_ReadsHaveNoSideEffect :
    beforeHi.op = .idle ∧ ∃ t, hostAccess (.readWord 0x0100000C#32) beforeHi = .next t := ⟨rfl, _, rfl⟩

theorem witness_IdleWritesTakeEffect : beforeHi.op = .idle ∧ 0x5#32 ≠ 0x0000000F#32 ∧ 0 < beforeHi.nMax.n ∧ 3 < beforeHi.nMax.n := by
  decide

theorem witness_WriteThenReadReturnsValue :
    beforeHi.op = .idle ∧ 3 < beforeHi.nMax.n ∧ 0 ≠ 3 ∧
    (∃ t, hostAccess (.writeWord 0x0100000C#32 5#32) beforeHi = .next t) ∧
    ∃ t, hostAccess (.writeWord 0x0300000C#32 5#32) beforeHi = .next t :=
  ⟨rfl, by decide, by decide, ⟨_, rfl⟩, _, rfl⟩

theorem witness_BusyWritesDroppedOrTaken :
    (window 0x2#32 beforeHi).op = .busy ∧ 0x1#32 ≠ 0x0000000F#32 ∧ 3 < (window 0x2#32 beforeHi).nMax.n := by decide

theorem witness_AcceptanceLatchesTheWord : beforeHi.op = .idle ∧ 0xFFFFFFFF#32 ≠ 0x0000000F#32 := by decide

/-- Idle; busy with a command, with an illegal word, and, in a state no run reaches, with SRESET. -/
theorem witness_EngineTurnRunsPendingCommand :
    beforeHi.op = .idle ∧ (window 0x2#32 beforeHi).op = .busy ∧ decode (window 0x2#32 beforeHi).pend = .ok .embed ∧
    decode (window 0x6#32 beforeHi).pend = .error .reservedOpcode ∧ (window 0xF#32 beforeHi).pend = 0x0000000F#32 :=
  ⟨rfl, rfl, rfl, rfl, rfl⟩

theorem witness_IllegalWordCompletes : beforeHi.op = .idle ∧ decode 0x12#32 = .error .straySelect := ⟨rfl, rfl⟩

theorem witness_EveryCompletionEndsTheWindow : ∃ t, exec .embed (window 0x2#32 beforeHi) = .next t := ⟨_, rfl⟩

theorem witness_WindowKeepsCommandInputs :
    (window 0x2#32 beforeHi).op = .busy ∧ Access.writeWord 0x14#32 5#32 ≠ .writeWord 0x0C#32 0x0000000F#32 ∧
    ∃ t, step { window 0x2#32 beforeHi with events := [.access (.writeWord 0x14#32 5#32)] } = .next t :=
  ⟨rfl, by decide, _, rfl⟩

theorem witness_CompletionAfterAnyHostAccesses :
    (∀ a ∈ [Access.writeWord 0x14#32 5#32, .readWord 0x18#32], a ≠ .writeWord 0x0C#32 0x0000000F#32) ∧
    ∃ t, Host.Core.run Sys2Proof.core 2 { window 0x2#32 beforeHi with
      events := [Access.writeWord 0x14#32 5#32, .readWord 0x18#32].map .access ++ .engine :: [] } = .next t := ⟨by decide, _, rfl⟩

/-- Cleared by STATUS, cleared by SRESET, set by a dropped write. -/
theorem witness_BweStickyUntilCleared :
    after (fun t => t.bwe) (hostAccess (.writeWord 0x10#32 8#32) { idle4 with bwe := true }) = some false ∧
    after (fun t => t.bwe) (hostAccess (.writeWord 0x0C#32 0xF#32) { idle4 with bwe := true }) = some false ∧
    after (fun t => t.bwe) (hostAccess (.writeWord 0x1C#32 0#32) (window 0x2#32 idle4)) = some true := by decide

theorem witness_CapOkWrittenOnlyByChecks :
    after (fun t => t.capOk) (exec .capchk idle4) = some true ∧ after (fun t => t.capOk) (exec .embed idle4) = some true ∧
    after (fun t => t.capOk) (exec .sreset { idle4 with capOk := true }) = some false ∧
    after (fun t => t.capOk) (hostAccess (.writeWord 0x0C#32 0xF#32) { idle4 with capOk := true }) = some false := by decide

/-- Each of the ways irq falls, from a state with irq = 1, and a completion that raises it. -/
theorem witness_InterruptFollowsDone :
    let s := { idle4 with irqEn := true, done := true }
    s.irq = true ∧ after State.irq (exec .nop { idle4 with irqEn := true }) = some true ∧ (0x2#32)[1] = true ∧
    after State.irq (hostAccess (.writeWord 0x10#32 0x2#32) s) = some false ∧
    after State.irq (hostAccess (.writeWord 0x0C#32 0x1#32) s) = some false ∧ after State.irq (exec .sreset s) = some false ∧
    (0x0#32)[0] = false ∧ after State.irq (hostAccess (.writeWord 0x08#32 0x0#32) s) = some false := by decide

theorem witness_FailedCommandChangesOnlyStatus :
    after (fun t => t.err) (exec .embed (sized beforeHi 2#16 2#16 5#32)) = some .capacity ∧
    after (fun t => t.err) (exec (.extract true) (sized beforeHi 5#16 1#16 0#32)) = some .badDim := by decide

/-- One pixel too many, one byte too many, and neither. -/
theorem witness_ErrorCodesByCommand :
    after (fun t => t.err) (exec .embed (sized beforeHi 5#16 1#16 0#32)) = some .badDim ∧
    after (fun t => t.err) (exec .embed (sized beforeHi 2#16 2#16 5#32)) = some .capacity ∧
    after (fun t => t.err) (exec .embed beforeHi) = some .none := by decide

theorem witness_BadDimBeforeAnyAccess :
    (sized idle4 5#16 1#16 0#32).nMax.n < (sized idle4 5#16 1#16 0#32).width.toNat * (sized idle4 5#16 1#16 0#32).height.toNat := by
  decide

theorem witness_EmbedCapacityErrorLeavesOutputs :
    let s := sized beforeHi 2#16 2#16 5#32
    s.width.toNat * s.height.toNat ≤ s.nMax.n ∧ s.width.toNat * s.height.toNat < s.msgLen.toNat := by decide

/-- L = n and L = n + 1. -/
theorem witness_CapchkSetsCapOk :
    (sized idle4 2#16 2#16 4#32).msgLen.toNat = 2 * 2 ∧ (sized idle4 2#16 2#16 5#32).msgLen.toNat = 2 * 2 + 1 := by decide

theorem witness_UnpackWritesByteR : ({ idle4 with pixA := 0xFCFCFCFC#32 } : State).pixA &&& 0x03030303#32 = 0#32 := by decide

/-- Two pixels that agree in channel 3 only, two bytes that agree in group 3 only. -/
theorem witness_LanesAreIndependent :
    (0xAB000000#32).extractLsb' (8 * 3) 8 = (0xABFFFFFF#32).extractLsb' (8 * 3) 8 ∧
    (0xC0#8).extractLsb' (2 * 3) 2 = (0xFF#8).extractLsb' (2 * 3) 2 := by decide

/-- The first and the last pixel of a 3 by 2 scan. -/
theorem witness_ScanVisitsColumnMajor : (scan 3 2)[0]? = some (0, 0) ∧ (scan 3 2)[5]? = some (2, 1) := by decide

theorem witness_StorageIndexIsBijective : 3 * 2 ≤ depth6.n ∧ idx 3 0 0 = 0 ∧ idx 3 2 1 = 5 ∧ 5 < 3 * 2 := by decide

/-- Four written pixels and the written bytes below L. -/
theorem embedReady_of_small {s : State} (h1 : s.width.toNat * s.height.toNat = 4) (h2 : 4 ≤ s.nMax.n) (h3 : s.msgLen.toNat ≤ 4)
    (h4 : ∀ i < 4, (s.mem.imgIn.read i).isSome = true) (h5 : ∀ j < s.msgLen.toNat, (s.mem.msgIn.read j).isSome = true) :
    s.EmbedReady :=
  { imageFits := h1 ▸ h2, messageFits := h1 ▸ h3,
    pixels := fun i hi => Option.isSome_iff_exists.1 (h4 i (h1 ▸ hi)), bytes := fun j hj => Option.isSome_iff_exists.1 (h5 j hj) }

/-- A pixel that holds a message byte, and one after the message. -/
theorem witness_EmbedWritesClosedForm :
    beforeHi.EmbedReady ∧ 0 * 2 + 1 < beforeHi.msgLen.toNat ∧ ¬ 1 * 2 + 0 < beforeHi.msgLen.toNat :=
  ⟨embedReady_of_small (by decide) (by decide) (by decide) (by decide) (by decide), by decide, by decide⟩

theorem witness_EmbedPreservesColourAndMarksRest :
    ∃ t, exec .embed beforeHi = .next t ∧ t.err = .none ∧ beforeHi.msgLen.toNat ≤ 1 * 2 + 0 := ⟨_, rfl, rfl, by decide⟩

/-- A buffer with another byte at entry 2, and one that lacks byte 1 while EMBED faults. -/
theorem witness_EmbedIgnoresBytesBeyondLength :
    (∀ j < beforeHi.msgLen.toNat, Store.read ([(0, 0x48#8), (1, 0x69#8), (2, 0xFF#8)] : Store Byte) j = beforeHi.mem.msgIn.read j) ∧
    (∃ t, exec .embed beforeHi = .next t) ∧ ∃ f, exec .embed (sized beforeHi 2#16 2#16 3#32) = .fault f :=
  ⟨by decide, ⟨_, rfl⟩, _, rfl⟩

/-- A message byte unwritten, and a pixel unwritten. -/
theorem witness_EmbedFaultsOnUnwrittenInput :
    (let s := sized beforeHi 2#16 2#16 3#32
     s.width.toNat * s.height.toNat ≤ s.nMax.n ∧ s.msgLen.toNat ≤ s.width.toNat * s.height.toNat ∧ ¬ s.EmbedReady) ∧
    ¬ State.EmbedReady { beforeHi with mem := { beforeHi.mem with imgIn := [] } } := by
  refine ⟨⟨by decide, by decide, fun h => ?_⟩, fun h => ?_⟩
  · obtain ⟨b, hb⟩ := h.bytes 2 (by decide)
    exact absurd hb (by rw [show (sized beforeHi 2#16 2#16 3#32).mem.msgIn.read 2 = none from rfl]; simp)
  · obtain ⟨p, hp⟩ := h.pixels 0 (by decide)
    exact nomatch (hp : none = some p)

/-- The image of X2 in IMG_IN: the scan of column 0 stops at row 0, so entry 2 need not be written. -/
def sourceX2 : State :=
  { sized idle4 2#16 2#16 0#32 with mem := { idle4.mem with imgIn := [(0, 0x80402010#32), (1, 0xFFFFFFFF#32), (3, 0xA5A5A5A5#32)] } }

theorem extractReady_sourceX2 : sourceX2.ExtractReady false := by
  refine ⟨by decide, fun x hx y hy hr => ?_⟩
  have hx : x < 2 := hx
  have hy : y < 2 := hy
  interval_cases x <;> interval_cases y
  · exact ⟨_, rfl⟩
  · obtain ⟨p, hp, hne⟩ := hr 0 (by decide)
    have he : p = 0x80402010#32 := (Option.some.inj hp).symm
    exact absurd (he ▸ rfl) hne
  · exact ⟨_, rfl⟩
  · exact ⟨_, rfl⟩

theorem witness_ExtractWritesClosedForm : sourceX2.ExtractReady false := extractReady_sourceX2

theorem witness_ExtractBoundedAndZeroFree :
    ∃ t, exec (.extract false) sourceX2 = .next t ∧ t.err = .none ∧ t.resultLen = 2#32 := ⟨_, rfl, rfl, by decide⟩

theorem witness_ExtractFaultsOnUnwrittenPixel :
    idle4.width.toNat * idle4.height.toNat ≤ idle4.nMax.n ∧
    ¬ State.ExtractReady true { sourceX2 with mem := { sourceX2.mem with imgOut := [] } } := by
  refine ⟨by decide, fun h => ?_⟩
  obtain ⟨p, hp⟩ := h.pixels 0 (by decide) 0 (by decide) (fun y hy => absurd hy (Nat.not_lt_zero y))
  exact nomatch (hp : none = some p)

/-- The "Hi" of E1, and a copy of its IMG_OUT in IMG_IN for S = 0. -/
theorem witness_RoundTripOfZeroFreeMessage :
    beforeHi.EmbedReady ∧ (∀ j < beforeHi.msgLen.toNat, beforeHi.mem.msgIn.read j ≠ some 0x00#8) ∧
    ∃ t, exec .embed beforeHi = .next t ∧ ∀ i < 4,
      (Memory.source { beforeHi.mem with imgIn := t.mem.imgOut } false).read i = t.mem.imgOut.read i :=
  ⟨embedReady_of_small (by decide) (by decide) (by decide) (by decide) (by decide), by decide, _, rfl, fun _ _ => rfl⟩

/-- X7, where a later column begins with a byte of the message, and a message whose zero begins the last column that holds any
of it. -/
theorem witness_ZeroByteEndsItsColumnOnly :
    (beforeZero.EmbedReady ∧ beforeZero.mem.msgIn.read 1 = some 0x00#8 ∧
      (∀ i < 1, beforeZero.mem.msgIn.read i ≠ some 0x00#8) ∧ 1 / 2 < 1 ∧ 1 * 2 < beforeZero.msgLen.toNat ∧
      beforeZero.mem.msgIn.read (1 * 2) ≠ some 0x00#8) ∧
    (beforeTruncated.EmbedReady ∧ beforeTruncated.mem.msgIn.read 2 = some 0x00#8 ∧
      (∀ i < 2, beforeTruncated.mem.msgIn.read i ≠ some 0x00#8) ∧
      ∀ x < 4, 2 / 2 < x → x * 2 < beforeTruncated.msgLen.toNat → beforeTruncated.mem.msgIn.read (x * 2) = some 0x00#8) :=
  ⟨⟨embedReady_of_small (by decide) (by decide) (by decide) (by decide) (by decide), by decide, by decide, by decide, by decide,
      by decide⟩,
    ⟨embedReady_of_small (by decide) (by decide) (by decide) (by decide) (by decide), by decide, by decide, by decide⟩⟩

/-- Idle; an EMBED in its window; an EXTRACT; one that does not fit; a command that writes no buffer. -/
theorem witness_SresetResetsAndAborts :
    beforeHi.op = .idle ∧ (window 0x2#32 beforeHi).op = .busy ∧ (window 0x2#32 beforeHi).pend = 0x2#32 ∧
    beforeHi.width.toNat * beforeHi.height.toNat ≤ beforeHi.nMax.n ∧ (window 0x13#32 beforeHi).pend = 0x13#32 ∧
    (sized beforeHi 5#16 1#16 0#32).nMax.n < 5 * 1 ∧ (window 0x4#32 beforeHi).pend ∉ [0x2#32, 0x3#32, 0x13#32] := by decide

/-- Two states with the same inputs and different flags, outputs and host. -/
theorem witness_ResultsDependOnInputsOnly :
    let s' := { beforeHi with bwe := true, capOk := true, resultLen := 4#32, pixR := 9#32, line := 7, temps := [(0, 1#32)] }
    State.SameInputs beforeHi s' ∧ s'.mem.imgOut = beforeHi.mem.imgOut ∧ s'.mem.msgOut = beforeHi.mem.msgOut ∧
    ∃ t, exec .embed beforeHi = .next t :=
  ⟨⟨rfl, rfl, rfl, rfl, rfl, rfl, rfl, rfl⟩, rfl, rfl, _, rfl⟩

theorem witness_ResultLenWrittenOnlyBySuccess :
    after (fun t => (t.err, t.resultLen)) (exec .embed beforeHi) = some (.none, 2#32) ∧
    after (fun t => t.resultLen) (exec .sreset { idle4 with resultLen := 2#32 }) = some 0#32 ∧
    after (fun t => t.resultLen) (hostAccess (.writeWord 0x0C#32 0xF#32) { idle4 with resultLen := 2#32 }) = some 0#32 ∧
    after (fun t => (t.err, t.resultLen)) (engineTurn (window 0x2#32 beforeHi)) = some (.none, 2#32) := by decide

theorem witness_StepKeepsInvariant :
    (window 0x2#32 beforeHi).Inv ∧ ∃ t, step { window 0x2#32 beforeHi with events := [] } = .next t ∧ t.mem.imgOut ≠ [] :=
  ⟨inv_window, _, rfl, by decide⟩

theorem witness_SresetNeverPending : (window 0x2#32 beforeHi).Inv := inv_window

theorem witness_DepthIsConstant : ∃ t, step { beforeHi with events := [.hwReset] } = .next t := ⟨_, rfl⟩

/-- A line to execute, and a position past the last line. -/
theorem witness_HostTurnExecutesNextLine :
    let s := { beforeHi with program := [.label 7] }
    s.program[s.line]? = some (.label 7) ∧ s.op = .idle ∧
    ({ s with line := 1 } : State).program.length ≤ ({ s with line := 1 } : State).line := by decide

/-- Each kind of line, and both outcomes of `if` and `expect`, `expect` on a field of a temporary, of a register and on an entry. -/
theorem witness_HostLinesMakeOneAccess :
    let s := { beforeHi with temps := [(1, 2#32)], program := [.label 7], irqEn := true, done := true }
    s.temps.read 1 = some 2#32 ∧
    (∃ u, hostAccess (.readWord (LocName.reg .width).offset) s = .next u ∧ u.answer = .data 2#32) ∧
    labelPosition s.program 7 = some 0 ∧ doneField.of 2#32 = 1#32 ∧ doneField.of 2#32 ≠ 0#32 ∧
    holds? (.field 1 doneField 1#32) s = some true ∧ holds? (.reg .status doneField 0#32) s = some false ∧
    holds? (.entry .imgIn 3 (some 0xA5A5A5A5#32)) s = some true ∧ holds? (.entry .imgIn 4 none) s = some false :=
  ⟨rfl, ⟨_, rfl, rfl⟩, rfl, by decide, by decide, by decide, by decide, by decide, by decide⟩

/-- With DONE = 0 and with DONE = 1, after one line. -/
theorem witness_WaitDoneLoopsUntilDone :
    (let s := { idle4 with program := [HostLine.rd (.reg .id) 0] ++ pseudoWaitDone 3 1 ++ [HostLine.label 4], line := 1 }
     s.op = .idle ∧ s.events = [] ∧ s.line = [HostLine.rd (.reg .id) 0].length ∧
     HostLine.label 3 ∉ [HostLine.rd (.reg .id) 0] ∧ s.done = false) ∧
    ({ idle4 with done := true } : State).done = true := by decide

end Sys2Proof.Tests
end

section
/-! A command's results are a function of its inputs (R8, R94): the two walks start from equal arguments in two states with
the same inputs and output buffers, so they end alike, and each case of EMBED and EXTRACT is the same case in both. -/

namespace Sys2Proof.Machine

/-- EMBED of an image that does not fit the buffers reports BAD_DIM, whatever the message (R211, R214). -/
theorem execEmbed_of_badDim {s : State} (hf : s.nMax.n < s.pixelCount) :
    execEmbed s = .next (complete .badDim { s with capOk := cap s.len s.pixelCount }) := by
  simp [execEmbed, State.imageFits, hf]

/-- EMBED of a message that does not fit an image that fits reports CAPACITY (R212). -/
theorem execEmbed_of_capacity {s : State} (hf : s.pixelCount ≤ s.nMax.n) (hc : s.pixelCount < s.len) :
    execEmbed s = .next (complete .capacity { s with capOk := false }) := by
  have hcap : cap s.len s.pixelCount = false := decide_eq_false (by omega)
  simp [execEmbed, State.imageFits, hf, hcap]

/-- EMBED past its checks, its walk ending with the buffers `m` and the cursor `k`, completes with them (R141). -/
theorem execEmbed_of_walk {s : State} {m : Memory} {k : Nat} (hf : s.pixelCount ≤ s.nMax.n) (hc : s.len ≤ s.pixelCount)
    (hs : embedScan s.width.toNat s.len (scan s.width.toNat s.height.toNat) s.mem 0 = .ok (m, k)) :
    execEmbed s = .next (complete .none { s with capOk := true, mem := m, resultLen := BitVec.ofNat 32 k }) := by
  rw [execEmbed_walk hf hc, hs]

/-- EXTRACT of an image that does not fit the buffers reports BAD_DIM (R211). -/
theorem execExtract_of_badDim {sBit : Bool} {s : State} (hf : s.nMax.n < s.pixelCount) :
    execExtract sBit s = .next (complete .badDim s) := by
  simp [execExtract, State.imageFits, hf]

/-- EXTRACT past its check, its walk ending with the bytes `out` and the cursor `k`, completes with them (R161). -/
theorem execExtract_of_walk {sBit : Bool} {s : State} {out : Store Byte} {k : Nat} (hf : s.pixelCount ≤ s.nMax.n)
    (hs : extractScan (sourceBuf sBit) (s.mem.source sBit) s.width.toNat s.height.toNat (List.range s.width.toNat)
      s.mem.msgOut 0 = .ok (out, k)) :
    execExtract sBit s =
      .next (complete .none { s with mem := { s.mem with msgOut := out }, resultLen := BitVec.ofNat 32 k }) := by
  rw [execExtract_walk hf, hs]

/-- An EXTRACT that passes its check and completes is the completion of its walk (R161). -/
theorem execExtract_next_walk {sBit : Bool} {s t : State} (hf : s.pixelCount ≤ s.nMax.n)
    (h : execExtract sBit s = .next t) :
    ∃ out k, extractScan (sourceBuf sBit) (s.mem.source sBit) s.width.toNat s.height.toNat (List.range s.width.toNat)
        s.mem.msgOut 0 = .ok (out, k) ∧
      t = complete .none { s with mem := { s.mem with msgOut := out }, resultLen := BitVec.ofNat 32 k } := by
  rw [execExtract_walk hf] at h
  split at h
  · simp at h
  next out k hs => exact ⟨out, k, hs, (Host.Outcome.next.inj h).symm⟩

namespace State.SameInputs

variable {s s' : State} (hin : State.SameInputs s s')
include hin

theorem pixelCount : s'.pixelCount = s.pixelCount := by
  simp only [State.pixelCount, hin.width, hin.height]

theorem len : s'.len = s.len := by
  simp only [State.len, hin.msgLen]

/-- The same inputs and output buffers are the same four buffers. -/
theorem mem (himg : s'.mem.imgOut = s.mem.imgOut) (hmsg : s'.mem.msgOut = s.mem.msgOut) : s'.mem = s.mem := by
  calc s'.mem
      = ⟨s'.mem.imgIn, s'.mem.imgOut, s'.mem.msgIn, s'.mem.msgOut⟩ := rfl
    _ = ⟨s.mem.imgIn, s.mem.imgOut, s.mem.msgIn, s.mem.msgOut⟩ := by rw [hin.imgIn, himg, hin.msgIn, hmsg]

/-- EMBED from the same inputs and buffers ends in the same case, with the same CAP_OK, buffers and, on success, length
(R141, R214). -/
theorem execEmbed_sameResults (hmem : s'.mem = s.mem) {t : State} (h : execEmbed s = .next t) :
    ∃ t', execEmbed s' = .next t' ∧ t'.err = t.err ∧ t'.mem = t.mem ∧ t'.capOk = t.capOk ∧
      (t.err = .none → t'.resultLen = t.resultLen) := by
  rcases execEmbed_next h with ⟨hf, rfl⟩ | ⟨hf, hc, rfl⟩ | ⟨hf, hc, m, k, hs, rfl⟩
  · rw [← hin.nMax, ← hin.pixelCount] at hf
    exact ⟨_, execEmbed_of_badDim hf, rfl, hmem, by simp [hin.len, hin.pixelCount], by simp⟩
  · rw [← hin.nMax, ← hin.pixelCount] at hf
    rw [← hin.len, ← hin.pixelCount] at hc
    exact ⟨_, execEmbed_of_capacity hf hc, rfl, hmem, rfl, by simp⟩
  · rw [← hin.nMax, ← hin.pixelCount] at hf
    rw [← hin.len, ← hin.pixelCount] at hc
    rw [← hin.width, ← hin.height, ← hin.len, ← hmem] at hs
    exact ⟨_, execEmbed_of_walk hf hc hs, rfl, rfl, rfl, fun _ => rfl⟩

/-- EXTRACT from the same inputs and buffers ends in the same case, with the same buffers and, on success, length
(R161). -/
theorem execExtract_sameResults (hmem : s'.mem = s.mem) {sBit : Bool} {t : State} (h : execExtract sBit s = .next t) :
    ∃ t', execExtract sBit s' = .next t' ∧ t'.err = t.err ∧ t'.mem = t.mem ∧
      (t.err = .none → t'.resultLen = t.resultLen) := by
  rcases execExtract_next h with ⟨hf, rfl⟩ | ⟨hf, -⟩
  · rw [← hin.nMax, ← hin.pixelCount] at hf
    exact ⟨_, execExtract_of_badDim hf, rfl, hmem, by simp⟩
  · obtain ⟨out, k, hs, rfl⟩ := execExtract_next_walk hf h
    rw [← hin.nMax, ← hin.pixelCount] at hf
    rw [← hin.width, ← hin.height, ← hmem] at hs
    exact ⟨_, execExtract_of_walk hf hs, rfl, by simp [hmem], fun _ => rfl⟩

end State.SameInputs

/-- Settles O52, command by command: NOP, CAPCHK, PACK and UNPACK write a function of the registers they read, and EMBED
and EXTRACT walk the same buffers. -/
theorem resultsDependOnInputsOnly : Obligations.ResultsDependOnInputsOnly := by
  intro i s s' t hi hin himg hmsg h
  have hmem := hin.mem himg hmsg
  cases i with
  | sreset => exact absurd rfl hi
  | nop =>
    obtain rfl := Host.Outcome.next.inj h
    exact ⟨_, rfl, rfl, hmem, by simp⟩
  | capchk =>
    obtain rfl := Host.Outcome.next.inj h
    exact ⟨_, rfl, rfl, hmem, by simp [hin.len, hin.pixelCount]⟩
  | pack =>
    obtain rfl := Host.Outcome.next.inj h
    exact ⟨_, rfl, rfl, hmem, by simp [hin.pixA, hin.byteA]⟩
  | unpack =>
    obtain rfl := Host.Outcome.next.inj h
    exact ⟨_, rfl, rfl, hmem, by simp [hin.pixA]⟩
  | embed =>
    obtain ⟨t', ht', herr, hm, hcap, hlen⟩ := hin.execEmbed_sameResults hmem h
    exact ⟨t', ht', herr, hm, fun _ => hcap, by simp, by simp, fun hok => hlen hok.1⟩
  | extract sBit =>
    obtain ⟨t', ht', herr, hm, hlen⟩ := hin.execExtract_sameResults hmem h
    exact ⟨t', ht', herr, hm, by simp, by simp, by simp, fun hok => hlen hok.1⟩

end Sys2Proof.Machine
end

section
/-! Frames, said once: what SRESET, a host access and a command leave as it was (R22, R94, R190). -/

namespace Sys2Proof.Machine

/-- SRESET puts every register at its reset value; only the buffers are left open here (R190). -/
theorem execSreset_next {s t : State} (h : execSreset s = .next t) : t = { resetRegisters s with mem := t.mem } := by
  obtain rfl := Host.Outcome.next.inj h
  split <;> rfl

/-- A host access other than SRESET leaves N_MAX, CAP_OK, the outputs, the schedule and the host's program, position and
temporaries (R30, R37, R71). -/
theorem hostAccess_next_frame {a : Access} {s t : State} (ha : a ≠ .writeWord 0x0C#32 0x0000000F#32)
    (h : hostAccess a s = .next t) :
    t = { s with
      irqEn := t.irqEn, done := t.done, bwe := t.bwe, err := t.err, width := t.width, height := t.height,
      msgLen := t.msgLen, pixA := t.pixA, byteA := t.byteA, op := t.op, pend := t.pend, draws := t.draws,
      answer := t.answer, mem := { s.mem with imgIn := t.mem.imgIn, msgIn := t.mem.msgIn } } := by
  rcases hostAccess_next h with ⟨-, ht⟩ | ⟨hs, -⟩ | ⟨w, -, -, -, ht⟩ | ⟨d, -, -, ht⟩ | ⟨d, -, ht⟩ | ⟨d, -, ht⟩ |
    ⟨d, -, -, -, ht⟩
  case inr.inl => exact absurd hs ha
  all_goals rw [ht] <;> rfl

/-- The SRESET write is SRESET, answered OKAY (R190). -/
theorem hostAccess_sreset (s : State) :
    hostAccess (.writeWord 0x0C#32 0x0000000F#32) s = exec .sreset { s with answer := .okay } :=
  hostAccess_writeReg .cmd 0x0000000F#32 s

/-- Every command, SRESET too, ends with op = IDLE and leaves N_MAX and what is not the block's own (R24, R94, R186, R190). -/
theorem exec_next_outside {i : Instr} {s t : State} (h : exec i s = .next t) :
    t.op = .idle ∧ t.nMax = s.nMax ∧ State.SameOutside s t := by
  by_cases hi : i = .sreset
  · subst hi
    rw [execSreset_next h]
    exact ⟨rfl, rfl, ⟨rfl, rfl, rfl, rfl, rfl, rfl⟩⟩
  · rw [exec_next_frame hi h]
    exact ⟨rfl, rfl, ⟨rfl, rfl, rfl, rfl, rfl, rfl⟩⟩

theorem exec_next_op {i : Instr} {s t : State} (h : exec i s = .next t) : t.op = .idle := (exec_next_outside h).1

theorem exec_next_nMax {i : Instr} {s t : State} (h : exec i s = .next t) : t.nMax = s.nMax := (exec_next_outside h).2.1

end Sys2Proof.Machine
end

section
/-! A property of states that the events and every kind of turn keep is kept by every step; N_MAX and the invariant of the
machine are two such properties. -/

namespace Sys2Proof.Machine

/-- `P` is kept by each thing a step may do: by the schedule and the host's own data, by a host access, by a command, by the
completion of an illegal word and by the reset input. -/
structure KeptByTurns (P : State → Prop) : Prop where
  events  : ∀ {s} es, P s → P { s with events := es }
  line    : ∀ {s} n, P s → P { s with line := n }
  temps   : ∀ {s} k v, P s → P { s with temps := s.temps.write k v }
  access  : ∀ {a s t}, hostAccess a s = .next t → P s → P t
  exec    : ∀ {i s t}, exec i s = .next t → P s → P t
  illegal : ∀ {s}, P s → P (complete .illegalCmd s)
  hwReset : ∀ {s}, P s → P (hardwareReset s)

namespace KeptByTurns

variable {P : State → Prop} (hP : KeptByTurns P)
include hP

theorem hostLine {s t : State} (h : hostLine s = .next t) (hs : P s) : P t := by
  rcases hostLine_next h with ⟨a, n, u, hu, ht⟩ | ⟨k, rfl⟩
  · have hPu : P u := hP.access hu (hP.line n hs)
    rcases ht with rfl | ⟨k, v, rfl⟩
    · exact hPu
    · exact hP.temps k v hPu
  · exact hP.line k hs

theorem engineTurn {s t : State} (h : engineTurn s = .next t) (hs : P s) : P t := by
  rcases engineTurn_next h with ⟨-, rfl⟩ | ⟨-, -, rfl⟩ | ⟨-, i, -, -, hi⟩
  · exact hs
  · exact hP.illegal hs
  · exact hP.exec hi hs

theorem step {s t : State} (h : step s = .next t) (hs : P s) : P t := by
  have hp : P s.popped := hP.events _ hs
  rcases step_cases h with ⟨a, ha⟩ | hl | he | hr
  · exact hP.access ha hp
  · exact hP.hostLine hl hp
  · exact hP.engineTurn he hp
  · obtain rfl := Host.Outcome.next.inj hr
    exact hP.hwReset hp

end KeptByTurns

/-- No host access changes N_MAX (R24). -/
theorem hostAccess_next_nMax {a : Access} {s t : State} (h : hostAccess a s = .next t) : t.nMax = s.nMax := by
  by_cases ha : a = .writeWord 0x0C#32 0x0000000F#32
  · subst ha; rw [hostAccess_sreset] at h; exact exec_next_nMax (s := { s with answer := .okay }) h
  · rw [hostAccess_next_frame ha h]

theorem keptByTurns_nMax (d : Depth) : KeptByTurns fun s => s.nMax = d where
  events _ hs := hs
  line _ hs := hs
  temps _ _ hs := hs
  access h hs := (hostAccess_next_nMax h).trans hs
  exec h hs := (exec_next_nMax h).trans hs
  illegal hs := hs
  hwReset hs := hs

/-- PARAM reads N_MAX, which fits its 32 bits (R6, R24). -/
theorem readReg_param_toNat (s : State) : (readReg .param s).toNat = s.nMax.n := by
  have hle := s.nMax.le
  exact Nat.mod_eq_of_lt (by omega)

/-- Settles O57: the range is part of the type of N_MAX, and no turn changes it. -/
theorem depthIsConstant : Obligations.DepthIsConstant := by
  intro s
  refine ⟨readReg_param_toNat s, s.nMax.pos, s.nMax.le, fun t h => ?_⟩
  have hn : t.nMax = s.nMax := (keptByTurns_nMax s.nMax).step h rfl
  exact ⟨hn, congrArg (fun d : Depth => BitVec.ofNat 32 d.n) hn⟩

/-! The invariant, turn by turn. -/

/-- A command that reports CAPACITY has CAP_OK = 0 (R212). -/
theorem exec_capacityErr {i : Instr} {s t : State} (h : exec i s = .next t) (he : t.err = .capacity) :
    t.capOk = false := by
  cases i with
  | nop => obtain rfl := Host.Outcome.next.inj h; simp at he
  | capchk => obtain rfl := Host.Outcome.next.inj h; simp at he
  | pack => obtain rfl := Host.Outcome.next.inj h; simp at he
  | unpack => obtain rfl := Host.Outcome.next.inj h; simp at he
  | sreset => rw [execSreset_next h]; rfl
  | embed =>
    rcases execEmbed_next h with ⟨-, rfl⟩ | ⟨-, -, rfl⟩ | ⟨-, -, m, k, -, rfl⟩
    · simp at he
    · rfl
    · simp at he
  | extract sBit => rcases execExtract_next h with ⟨-, rfl⟩ | ⟨-, rfl⟩ <;> simp at he

namespace State.Inv

theorem writeTemp {s : State} (h : s.Inv) (k : Nat) (v : Word) : State.Inv { s with temps := s.temps.write k v } :=
  { h with tempsSorted := Store.sorted_write k v h.tempsSorted }

/-- Of a command's inputs the invariant speaks only of the canonical form of IMG_IN and MSG_IN. -/
theorem inputs {s : State} (h : s.Inv) {w ht : Dim} {l p : Word} {b : Byte} {img : Store Word} {msg : Store Byte}
    (hw : Memory.wf { s.mem with imgIn := img, msgIn := msg } s.nMax.n) :
    State.Inv { s with
      width := w, height := ht, msgLen := l, pixA := p, byteA := b, mem := { s.mem with imgIn := img, msgIn := msg } } :=
  { h with memWf := hw }

/-- Acceptance clears DONE and ERR, and SRESET is never latched (R181). -/
theorem accept {s : State} (h : s.Inv) {w : Word} (hw : w ≠ 0x0000000F#32) : (accept w s).Inv :=
  { h with doneIdle := by simp, busyErr := by simp, busyPend := fun _ => hw, capacityErr := by simp }

/-- The host's clearing of DONE and BWE (R217). -/
theorem clearStatus {s : State} (h : s.Inv) (d : Word) : (clearStatus d s).Inv :=
  { h with doneIdle := fun hd => h.doneIdle (Bool.and_eq_true_iff.1 hd).1 }

theorem complete_illegalCmd {s : State} (h : s.Inv) : (complete .illegalCmd s).Inv :=
  { h with doneIdle := by simp, busyErr := by simp, busyPend := by simp, capacityErr := by simp }

theorem hardwareReset {s : State} (h : s.Inv) : (hardwareReset s).Inv where
  memWf := Memory.wf_unwritten _
  doneIdle := by simp
  busyErr := by simp
  busyPend := by simp
  resultBound := by simp
  capacityErr := by simp
  msgOutNoZero := by simp [Memory.unwritten]
  tempsSorted := h.tempsSorted

/-- A command's effect: what concerns the window holds since it has ended (R186). -/
theorem exec {i : Instr} {s t : State} (h : exec i s = .next t) (hs : s.Inv) : t.Inv where
  memWf := exec_keeps_memWf h hs.memWf
  doneIdle _ := exec_next_op h
  busyErr hb := by simp [exec_next_op h] at hb
  busyPend hb := by simp [exec_next_op h] at hb
  resultBound := exec_keeps_resultBound h hs.resultBound
  capacityErr := exec_capacityErr h
  msgOutNoZero := exec_keeps_msgOutNoZero h hs.msgOutNoZero
  tempsSorted := (exec_next_outside h).2.2.temps ▸ hs.tempsSorted

/-- A host access, by what it can do. -/
theorem hostAccess {a : Access} {s t : State} (h : hostAccess a s = .next t) (hs : s.Inv) : t.Inv := by
  have hok : State.Inv { s with answer := .okay } := { hs with }
  rcases hostAccess_next h with ⟨-, ht⟩ | ⟨-, hsr⟩ | ⟨w, -, hw, -, rfl⟩ | ⟨d, -, -, rfl⟩ | ⟨d, -, rfl⟩ | ⟨d, -, rfl⟩ |
    ⟨d, -, -, hwf, ht⟩
  · rw [ht]; exact { hs with }
  · exact exec (i := .sreset) hsr hok
  · exact hok.accept hw
  · exact { hs with }
  · exact { hs with }
  · exact hok.clearStatus d
  · have hmem := hwf hs.memWf
    rw [ht] at hmem ⊢
    exact hok.inputs hmem

end State.Inv

theorem keptByTurns_inv : KeptByTurns State.Inv where
  events _ hs := { hs with }
  line _ hs := { hs with }
  temps k v hs := hs.writeTemp k v
  access := State.Inv.hostAccess
  exec := State.Inv.exec
  illegal := State.Inv.complete_illegalCmd
  hwReset := State.Inv.hardwareReset

/-- Settles O55: each kind of turn keeps the invariant. -/
theorem stepKeepsInvariant : Obligations.StepKeepsInvariant :=
  fun _ _ hs h => keptByTurns_inv.step h hs

end Sys2Proof.Machine
end

section
/-! What a host access does to STATUS and the outputs (R30, R31, R37), and that a read is without effect (R22(d), R72). -/

namespace Sys2Proof.Machine

/-- A read's value does not depend on what the port answered last. -/
theorem readReg_answer (r : Reg) (s : State) (a : Answer) : readReg r { s with answer := a } = readReg r s := by
  cases r <;> rfl

/-- A read by R192 that answers, made again, answers the same. -/
theorem readDefined_again {l : Loc} {s t : State} (h : readDefined l s = .next t) : readDefined l t = .next t := by
  cases l with
  | reg r =>
    obtain rfl := Host.Outcome.next.inj h
    simp only [readDefined, readReg_answer]
  | entry b i =>
    cases he : s.mem.entryWord b i with
    | none => simp [readDefined, he] at h
    | some v =>
      simp only [readDefined, he, Host.Outcome.next.injEq] at h
      subst h
      simp only [readDefined, he]

theorem readLoc_of_idle {l : Loc} {s : State} (hop : s.op = .idle) : readLoc l s = readDefined l s := by
  simp only [readLoc, hop]

/-- A read that answers is the read of its location. -/
theorem hostAccess_read_next {a : Access} {s t : State} (hdir : a.dir = .read) (h : hostAccess a s = .next t) :
    ∃ l, mapAccess s.nMax.n a = .ok l ∧ readLoc l s = .next t := by
  unfold hostAccess at h
  split at h
  · simp at h
  next l hl => exact ⟨l, hl, by simpa only [hdir] using h⟩

theorem hostAccess_of_mapped_read {a : Access} {l : Loc} {s : State} (hdir : a.dir = .read)
    (hl : mapAccess s.nMax.n a = .ok l) : hostAccess a s = readLoc l s := by
  simp only [hostAccess, hl, hdir]

/-- Settles O13: a read leaves op, N_MAX and all that R192's values depend on, so it maps and answers again as it did. -/
theorem readsHaveNoSideEffect : Obligations.ReadsHaveNoSideEffect := by
  intro s t a hdir h
  obtain ⟨l, hl, hread⟩ := hostAccess_read_next hdir h
  have ht := readLoc_next hread
  refine ⟨ht, fun hop => ?_⟩
  have hnMax : t.nMax = s.nMax := by rw [ht]
  have hopt : t.op = .idle := by rw [ht]; exact hop
  rw [readLoc_of_idle hop] at hread
  rw [hostAccess_of_mapped_read hdir (hnMax ▸ hl), readLoc_of_idle hopt, readDefined_again hread]

/-- What a host access does to BWE: nothing; or SRESET clears it; or a dropped write sets it; or a STATUS write clears it by
its bit 3 (R31). -/
theorem hostAccess_bwe {a : Access} {s t : State} (h : hostAccess a s = .next t) :
    t.bwe = s.bwe ∨
    (a = .writeWord 0x0C#32 0x0000000F#32 ∧ t.bwe = false) ∨
    (s.op = .busy ∧ (∃ d, a.dir = .write d) ∧ t = { s with bwe := true, answer := .okay }) ∨
    ∃ d : Word, a = .writeWord 0x10#32 d ∧ t.bwe = (s.bwe && !d[3]) := by
  rcases hostAccess_next h with ⟨-, ht⟩ | ⟨ha, hs⟩ | ⟨w, -, -, -, rfl⟩ | ⟨d, hop, hd, ht⟩ | ⟨d, -, rfl⟩ | ⟨d, ha, rfl⟩ |
    ⟨d, -, -, -, ht⟩
  · exact .inl (by rw [ht])
  · exact .inr (.inl ⟨ha, by rw [execSreset_next hs]; rfl⟩)
  · exact .inl rfl
  · exact .inr (.inr (.inl ⟨hop, ⟨d, hd⟩, ht⟩))
  · exact .inl rfl
  · exact .inr (.inr (.inr ⟨d, ha, rfl⟩))
  · exact .inl (by rw [ht])

/-- Settles O25, by what an access does to BWE. -/
theorem bweStickyUntilCleared : Obligations.BweStickyUntilCleared := by
  intro s t a h
  rcases hostAccess_bwe h with hb | ⟨ha, hb⟩ | ⟨hop, hd, rfl⟩ | ⟨d, ha, hb⟩
  · exact ⟨fun h1 h2 => by simp [h1, h2] at hb, fun h1 h2 => by simp [h1, h2] at hb⟩
  · exact ⟨fun _ _ => .inr ha, fun _ h2 => by simp [h2] at hb⟩
  · exact ⟨fun _ h2 => by simp at h2, fun _ _ => ⟨hop, hd, rfl⟩⟩
  · exact ⟨fun h1 h2 => .inl ⟨d, ha, by simpa [h1, h2] using hb⟩, fun h1 h2 => by simp [h1, h2] at hb⟩

/-- Settles O26: a host access other than SRESET leaves CAP_OK, and every command but CAPCHK, EMBED and SRESET leaves it. -/
theorem capOkWrittenOnlyByChecks : Obligations.CapOkWrittenOnlyByChecks := by
  refine ⟨fun i s t h hne => ?_, fun a s t h hne => ?_⟩
  · cases i with
    | capchk => exact .inl rfl
    | embed => exact .inr (.inl rfl)
    | sreset => exact .inr (.inr rfl)
    | nop => obtain rfl := Host.Outcome.next.inj h; exact absurd rfl hne
    | pack => obtain rfl := Host.Outcome.next.inj h; exact absurd rfl hne
    | unpack => obtain rfl := Host.Outcome.next.inj h; exact absurd rfl hne
    | extract sBit => rcases execExtract_next h with ⟨-, rfl⟩ | ⟨-, rfl⟩ <;> exact absurd rfl hne
  · by_contra ha
    exact hne (by rw [hostAccess_next_frame ha h])

/-- CAPACITY as a number: the product fits 32 bits (R36). -/
theorem capacityWord_toNat (s : State) : s.capacityWord.toNat = s.pixelCount := by
  have hle := pixelCount_le s
  have hw : s.width.toNat % 2 ^ 32 = s.width.toNat := Nat.mod_eq_of_lt (by omega)
  have hh : s.height.toNat % 2 ^ 32 = s.height.toNat := Nat.mod_eq_of_lt (by omega)
  calc s.capacityWord.toNat = s.pixelCount % 2 ^ 32 := by
        simp only [State.capacityWord, State.pixelCount, BitVec.toNat_mul, BitVec.toNat_setWidth, hw, hh]
    _ = s.pixelCount := Nat.mod_eq_of_lt (by omega)

/-- Settles O17. -/
theorem capacityIsExactProduct : Obligations.CapacityIsExactProduct :=
  ⟨fun s => ⟨capacityWord_toNat s, pixelCount_le s⟩, fun _ => rfl⟩

end Sys2Proof.Machine
end

section
/-! The scan of an image (R47, R142), and RESULT_LEN, which EMBED's walk over it leaves at L (R37). -/

namespace Sys2Proof.Machine

/-- The scan of one column more ends with that column. -/
theorem scan_succ (W H : Nat) : scan (W + 1) H = scan W H ++ (List.range H).map fun y => (W, y) := by
  simp only [scan, List.range_succ, List.flatMap_append, List.flatMap_cons, List.flatMap_nil, List.append_nil]

@[simp] theorem scan_length (W H : Nat) : (scan W H).length = W * H := by
  induction W with
  | zero => simp [scan]
  | succ W ih => rw [scan_succ, List.length_append, ih, List.length_map, List.length_range, Nat.succ_mul]

/-- The j-th pixel of the scan, column after column (R142). -/
theorem scan_getElem? {W H j : Nat} (hj : j < W * H) : (scan W H)[j]? = some (j / H, j % H) := by
  induction W with
  | zero => omega
  | succ W ih =>
    rw [Nat.succ_mul] at hj
    rw [scan_succ]
    rcases Nat.lt_or_ge j (W * H) with hlt | hge
    · rw [List.getElem?_append_left (by simpa using hlt), ih hlt]
    · obtain ⟨y, rfl⟩ := Nat.exists_eq_add_of_le' hge
      have hy : y < H := by omega
      rw [List.getElem?_append_right (by simp), scan_length, Nat.add_sub_cancel, List.getElem?_map,
        List.getElem?_range hy, Nat.add_mul_div_right _ _ (by omega), Nat.div_eq_of_lt hy, Nat.add_mul_mod_self_right,
        Nat.mod_eq_of_lt hy, Nat.zero_add, Option.map_some]

/-- Settles O40. -/
theorem scanVisitsColumnMajor : Obligations.ScanVisitsColumnMajor :=
  fun W H => ⟨scan_length W H, fun _ hj => scan_getElem? hj⟩

/-- A successful EMBED sets RESULT_LEN to L: its cursor has counted the W × H pixels up to L, which is at most W × H
(R37, R141). -/
theorem execEmbed_resultLen {s t : State} (h : execEmbed s = .next t) (he : t.err = .none) : t.resultLen = s.msgLen := by
  rcases execEmbed_next h with ⟨-, rfl⟩ | ⟨-, -, rfl⟩ | ⟨-, hc, m, k, hs, rfl⟩
  · simp at he
  · simp at he
  · obtain ⟨hk, -⟩ := embedScan_ok (Nat.zero_le _) hs
    have hkl : k = s.len := by
      rw [hk, Nat.zero_add, scan_length]
      exact Nat.min_eq_right hc
    simp [hkl, State.len]

/-- The commands that change RESULT_LEN: SRESET, and EMBED and EXTRACT where they succeed (R37). -/
theorem exec_resultLen_writer {i : Instr} {s t : State} (h : exec i s = .next t) (hne : t.resultLen ≠ s.resultLen) :
    i = .sreset ∨ (t.err = .none ∧ (i = .embed ∨ i = .extract false ∨ i = .extract true)) := by
  cases i with
  | sreset => exact .inl rfl
  | nop => obtain rfl := Host.Outcome.next.inj h; exact absurd rfl hne
  | capchk => obtain rfl := Host.Outcome.next.inj h; exact absurd rfl hne
  | pack => obtain rfl := Host.Outcome.next.inj h; exact absurd rfl hne
  | unpack => obtain rfl := Host.Outcome.next.inj h; exact absurd rfl hne
  | embed =>
    rcases execEmbed_next h with ⟨-, rfl⟩ | ⟨-, -, rfl⟩ | ⟨-, -, m, k, -, rfl⟩
    · exact absurd rfl hne
    · exact absurd rfl hne
    · exact .inr ⟨rfl, .inl rfl⟩
  | extract sBit =>
    rcases execExtract_next h with ⟨-, rfl⟩ | ⟨-, rfl⟩
    · exact absurd rfl hne
    · exact .inr ⟨rfl, by cases sBit <;> simp⟩

/-- Settles O53: a host access other than SRESET leaves RESULT_LEN, and the engine changes it by a command only. -/
theorem resultLenWrittenOnlyBySuccess : Obligations.ResultLenWrittenOnlyBySuccess := by
  refine ⟨fun i s t h => ⟨?_, ?_, exec_resultLen_writer h⟩, fun a s t h hne => ?_, fun s t h hne => ?_, fun s => rfl⟩
  · rintro ⟨rfl, he⟩
    exact execEmbed_resultLen h he
  · rintro rfl
    rw [execSreset_next h]; rfl
  · by_contra ha
    exact hne (by rw [hostAccess_next_frame ha h])
  · rcases engineTurn_next h with ⟨-, rfl⟩ | ⟨-, -, rfl⟩ | ⟨hop, i, hi, hsr, he⟩
    · exact absurd rfl hne
    · exact absurd rfl hne
    · obtain ⟨herr, hw⟩ := (exec_resultLen_writer he hne).resolve_left hsr
      exact ⟨hop, herr, i, hi, hw⟩

end Sys2Proof.Machine
end

section
/-! Which accesses are bus errors (R68 to R71): the map rejects the access, or it is a write to a location the host only
reads; both are said of the offset as a number. -/

namespace Sys2Proof.Machine

/-- The locations the host may only read (R22(b), R71). -/
def Loc.isReadOnly (l : Loc) : Bool :=
  match l with
  | .reg r => r ∈ [.id, .param, .capacity, .resultLen, .pixR, .byteR]
  | .entry b _ => b ∈ [.imgOut, .msgOut]

/-- The word offsets outside the map: reserved, or of an entry index at or above N_MAX (R69). -/
def unmappedOffset (n A : Nat) : Prop :=
  (0x38 ≤ A ∧ A < 0x01000000) ∨ 0x05000000 ≤ A ∨ (0x01000000 ≤ A ∧ A < 0x05000000 ∧ n ≤ (A % 0x01000000) / 4)

/-- The offsets of the read-only registers and of the output windows (R22(b), R71). -/
def readOnlyOffset (A : Nat) : Prop :=
  A ∈ [0x00, 0x04, 0x20, 0x24, 0x30, 0x34] ∨ (0x02000000 ≤ A ∧ A < 0x03000000) ∨ (0x04000000 ≤ A ∧ A < 0x05000000)

/-- A mapped location is read-only exactly by its offset. -/
theorem Loc.isReadOnly_iff_offset (d : Depth) {a : Word} {l : Loc} (ha : a.toNat % 4 = 0) (hl : locAt d.n a = some l) :
    l.isReadOnly = true ↔ readOnlyOffset a.toNat := by
  cases l with
  | reg r =>
    obtain rfl := (locAt_reg ha).1 hl
    cases r <;> simp [isReadOnly, readOnlyOffset, Reg.offset]
  | entry b i =>
    obtain ⟨hi, he⟩ := (locAt_entry d.le ha).1 hl
    rw [b.base_toNat] at he
    have hd := d.le
    have hwin := b.window_range
    have hoff : readOnlyOffset a.toNat ↔ b.window = 2 ∨ b.window = 4 := by
      simp only [readOnlyOffset, List.mem_cons, List.not_mem_nil, or_false]
      omega
    rw [hoff]
    cases b <;> simp [isReadOnly, Buf.window]

/-- Why the map rejects an access: its size, then its alignment, then its offset (R68 to R70). -/
theorem mapAccess_error {n : Nat} {a : Access} {e : BusError} :
    mapAccess n a = .error e ↔
      (e = .badSize ∧ a.bits ≠ 32) ∨
      (e = .misaligned ∧ a.bits = 32 ∧ a.offset.toNat % 4 ≠ 0) ∨
      (e = .unmapped ∧ a.bits = 32 ∧ a.offset.toNat % 4 = 0 ∧ unmappedOffset n a.offset.toNat) := by
  simp only [mapAccess, ne_eq, aligned_iff]
  by_cases hb : a.bits = 32
  · by_cases ha : a.offset.toNat % 4 = 0
    · have hn : locAt n a.offset = none ↔ unmappedOffset n a.offset.toNat := locAt_none ha
      cases hl : locAt n a.offset <;> simp [hb, ha, ← hn, hl, eq_comm]
    · simp [hb, ha, eq_comm]
  · simp [hb, eq_comm]

/-- No read is a bus error once it is mapped. -/
theorem readLoc_ne_busError (l : Loc) (s : State) (e : BusError) : readLoc l s ≠ .fault (.busError e) := by
  have hd : readDefined l s ≠ .fault (.busError e) := by
    cases l with
    | reg r => simp [readDefined]
    | entry b i => cases hv : s.mem.entryWord b i <;> simp [readDefined, hv]
  unfold readLoc
  split
  · exact hd
  · split_ifs
    · simp [answerDrawn]
    · simp [answerDrawn]
    · exact hd

/-- The write of a command's input is no bus error. -/
theorem writeInput_ne_fault (s w : State) (f : Fault) : writeInput s w ≠ .fault f := by
  unfold writeInput
  split <;> simp

/-- The write of a command word is no bus error. -/
theorem offerCommand_ne_fault (w : Word) (s : State) (f : Fault) : offerCommand w s ≠ .fault f := by
  unfold offerCommand
  split_ifs
  · simp [execSreset]
  · split <;> simp

/-- A write to a mapped location is a bus error exactly where the location is read-only (R22(b), R71). -/
theorem writeLoc_busError {l : Loc} {d : Word} {s : State} {e : BusError} :
    writeLoc l d s = .fault (.busError e) ↔ e = .readOnly ∧ l.isReadOnly = true := by
  cases l with
  | reg r => cases r <;> simp [writeLoc, Loc.isReadOnly, writeInput_ne_fault, offerCommand_ne_fault, eq_comm (a := e)]
  | entry b i => cases b <;> simp [writeLoc, Loc.isReadOnly, writeInput_ne_fault, eq_comm (a := e)]

/-- An access is a bus error when the map rejects it, or when it writes a read-only location (R69 to R71). -/
theorem hostAccess_busError {a : Access} {s : State} {e : BusError} :
    hostAccess a s = .fault (.busError e) ↔
      mapAccess s.nMax.n a = .error e ∨
      (e = .readOnly ∧ ∃ l, mapAccess s.nMax.n a = .ok l ∧ l.isReadOnly = true ∧ ∃ d, a.dir = .write d) := by
  unfold hostAccess
  cases hm : mapAccess s.nMax.n a with
  | error e' => simp
  | ok l =>
    cases hdir : a.dir with
    | read => simp [readLoc_ne_busError]
    | write d => simp [writeLoc_busError]

/-- The accesses whose location is read-only, by their size and offset. -/
theorem mapAccess_readOnly {d : Depth} {a : Access} :
    (∃ l, mapAccess d.n a = .ok l ∧ l.isReadOnly = true) ↔
      a.bits = 32 ∧ a.offset.toNat % 4 = 0 ∧ ¬ unmappedOffset d.n a.offset.toNat ∧ readOnlyOffset a.offset.toNat := by
  constructor
  · rintro ⟨l, hm, hro⟩
    obtain ⟨hb, ha, hl⟩ := mapAccess_ok.1 hm
    have hmapped : ¬ unmappedOffset d.n a.offset.toNat := fun hu => by simp [(locAt_none ha).2 hu] at hl
    exact ⟨hb, ha, hmapped, (Loc.isReadOnly_iff_offset d ha hl).1 hro⟩
  · rintro ⟨hb, ha, hmapped, hro⟩
    obtain ⟨l, hl⟩ := Option.ne_none_iff_exists'.1 fun hn => hmapped ((locAt_none ha).1 hn)
    exact ⟨l, mapAccess_ok.2 ⟨hb, ha, hl⟩, (Loc.isReadOnly_iff_offset d ha hl).2 hro⟩

/-- Settles O8: a bus error is the map's or a read-only location's, and both are known by the size and the offset. -/
theorem busErrorExactly : Obligations.BusErrorExactly := by
  intro s a e A unmapped readOnly
  have hro : (∃ l, mapAccess s.nMax.n a = .ok l ∧ l.isReadOnly = true) ↔
      a.bits = 32 ∧ A % 4 = 0 ∧ ¬ unmapped ∧ readOnly := mapAccess_readOnly
  have herr : mapAccess s.nMax.n a = .error e ↔ (e = .badSize ∧ a.bits ≠ 32) ∨
      (e = .misaligned ∧ a.bits = 32 ∧ A % 4 ≠ 0) ∨ (e = .unmapped ∧ a.bits = 32 ∧ A % 4 = 0 ∧ unmapped) :=
    mapAccess_error
  simp only [hostAccess_busError, herr, ← and_assoc, exists_and_right, hro, or_assoc]

/-- Settles O9: an entry's offset does not wrap, since N_MAX is at most 2^22. -/
theorem windowOffsetsSelectEntries : Obligations.WindowOffsetsSelectEntries := by
  refine ⟨rfl, rfl, rfl, rfl, fun n b i a => ⟨fun h => ?_, ?_⟩⟩
  · obtain ⟨-, ha, hl⟩ := mapAccess_ok.1 h
    obtain ⟨hi, he⟩ := (locAt_entry n.le ha).1 hl
    exact ⟨hi, BitVec.eq_of_toNat_eq (he.trans (entryOffset_toNat (hi.trans_le n.le)).symm)⟩
  · rintro ⟨hi, rfl⟩
    exact mapAccess_entryWord n b hi .read

end Sys2Proof.Machine
end

section
/-! The BUSY window against the host (R70, R78, R183): what an access does not touch, and a harness that goes on after a bus
error. -/

namespace Sys2Proof.Machine

/-- In the BUSY window a host access other than SRESET changes IRQ_EN, DONE, BWE, the draws and the answer at most (R78,
R183). -/
theorem hostAccess_next_busy {a : Access} {s t : State} (hop : s.op = .busy) (ha : a ≠ .writeWord 0x0C#32 0x0000000F#32)
    (h : hostAccess a s = .next t) :
    t = { s with irqEn := t.irqEn, done := t.done, bwe := t.bwe, draws := t.draws, answer := t.answer } := by
  rcases hostAccess_next h with ⟨-, ht⟩ | ⟨hs, -⟩ | ⟨w, hidle, -⟩ | ⟨d, -, -, ht⟩ | ⟨d, -, ht⟩ | ⟨d, -, ht⟩ | ⟨d, hidle, -⟩
  case inr.inl => exact absurd hs ha
  case inr.inr.inl | inr.inr.inr.inr.inr.inr => simp [hop] at hidle
  all_goals rw [ht] <;> rfl

/-- Settles O23: an access in the window touches none of the fields named. -/
theorem windowKeepsCommandInputs : Obligations.WindowKeepsCommandInputs := by
  intro s t a rest hop ha h
  rw [hostAccess_next_busy (s := { s with events := rest }) hop ha h]
  exact ⟨⟨rfl, rfl, rfl, rfl, rfl, rfl, rfl, rfl⟩, ⟨rfl, rfl, rfl, rfl, rfl⟩, rfl, hop, rfl, rfl⟩

theorem engineTurn_of_busy {s : State} (hop : s.op = .busy) : engineTurn s = completePending s := by
  simp only [engineTurn, hop]

/-- Settles O10: with the failed access taken off the schedule, the next turn is the engine's, and op is still BUSY. -/
theorem busErrorLeavesCommandInProgress : Obligations.BusErrorLeavesCommandInProgress :=
  fun s _ rest _ hop _ => engineTurn_of_busy (s := { s with events := rest, answer := .error }) hop

end Sys2Proof.Machine
end

section
/-! The storage index of a pixel (R66, R67): y and x are the quotient and the remainder of idx by W. -/

namespace Sys2Proof.Machine

theorem idx_mod {W x : Nat} (y : Nat) (hx : x < W) : idx W x y % W = x := by
  rw [idx, Nat.mul_add_mod', Nat.mod_eq_of_lt hx]

theorem idx_div {W x : Nat} (y : Nat) (hx : x < W) : idx W x y / W = y := by
  rw [idx, Nat.mul_comm, Nat.mul_add_div (by omega), Nat.div_eq_of_lt hx, Nat.add_zero]

/-- Every index is that of its remainder and quotient. -/
theorem idx_mod_div (W i : Nat) : idx W (i % W) (i / W) = i := Nat.div_add_mod' i W

/-- The last pixel's index is W × H - 1. -/
theorem idx_last {W H : Nat} (hW : 0 < W) (hH : 0 < H) : (H - 1) * W + (W - 1) = W * H - 1 := by
  obtain ⟨h, rfl⟩ := Nat.exists_eq_add_of_le' hH
  rw [Nat.add_sub_cancel, Nat.mul_comm W, Nat.succ_mul]
  omega

/-- Settles O41: the remainder and the quotient by W are the inverse of idx. -/
theorem storageIndexIsBijective : Obligations.StorageIndexIsBijective := by
  intro W H N hfit
  refine ⟨fun x y hx hy => ?_, fun x y x' y' hx _ hx' _ he => ?_, fun i hi => ?_⟩
  · have hlt : idx W x y < W * H := idx_lt_of_mem_scan (p := (x, y)) (mem_scan.2 ⟨hx, hy⟩)
    have hlast := idx_last (Nat.zero_lt_of_lt hx) (Nat.zero_lt_of_lt hy)
    omega
  · exact ⟨by rw [← idx_mod y hx, he, idx_mod y' hx'], by rw [← idx_div y hx, he, idx_div y' hx']⟩
  · have hW : 0 < W := Nat.pos_of_mul_pos_right (Nat.zero_lt_of_lt hi)
    exact ⟨i % W, i / W, Nat.mod_lt i hW, Nat.div_lt_of_lt_mul hi, idx_mod_div W i⟩

end Sys2Proof.Machine
end

section
/-! The decoder and the encoder are inverse (R90, R96), and a word is legal by its fields (R91 to R93, R97). -/

namespace Sys2Proof

/-- The decoder reads every encoding back. -/
@[simp] theorem decode_encode (i : Instr) : decode (encode i) = .ok i := by
  cases i with
  | extract sBit => cases sBit <;> rfl
  | _ => rfl

/-- A decoded word is the encoding of its command. -/
theorem eq_encode_of_decode {w : Word} {i : Instr} (h : decode w = .ok i) : w = encode i := by
  rcases decode_ok_cases h with ⟨rfl, rfl⟩ | ⟨rfl, rfl⟩ | ⟨rfl, rfl⟩ | ⟨rfl, rfl⟩ | ⟨rfl, rfl⟩ | ⟨rfl, rfl⟩ | ⟨rfl, rfl⟩ |
    ⟨rfl, rfl⟩ <;> rfl

/-- Settles O2. -/
theorem decodeAndEncodeAgree : Obligations.DecodeAndEncodeAgree :=
  fun _ _ => ⟨eq_encode_of_decode, fun h => h ▸ decode_encode _⟩

/-- The rejected words are those that no command encodes to (R97). -/
theorem decode_error_iff {w : Word} : (∃ r, decode w = .error r) ↔ ¬ ∃ i, w = encode i := by
  constructor
  · rintro ⟨r, hr⟩ ⟨i, rfl⟩
    simp at hr
  · intro hne
    cases hd : decode w with
    | error r => exact ⟨r, rfl⟩
    | ok i => exact absurd ⟨i, eq_encode_of_decode hd⟩ hne

/-- The eight legal words (R95, R96). -/
theorem encode_mem_legalWords (i : Instr) :
    encode i ∈ [0x0#32, 0x1#32, 0x2#32, 0x3#32, 0x13#32, 0x4#32, 0x5#32, 0xF#32] := by
  cases i with
  | extract sBit => cases sBit <;> decide
  | _ => decide

/-- Settles O1. -/
theorem decodeOfEveryWord : Obligations.DecodeOfEveryWord := by
  refine ⟨decode_encode .nop, decode_encode .capchk, decode_encode .embed, decode_encode (.extract false),
    decode_encode (.extract true), decode_encode .pack, decode_encode .unpack, decode_encode .sreset, fun w hw => ?_⟩
  rw [decode_error_iff]
  rintro ⟨i, rfl⟩
  exact hw (encode_mem_legalWords i)

/-- A command word is RSV, then S, then OP (R90). -/
theorem word_eq_fields (w : Word) : w = w.extractLsb' 5 27 ++ BitVec.ofBool w[4] ++ w.extractLsb' 0 4 := by
  have hS : BitVec.ofBool w[4] = w.extractLsb' 4 1 := by
    ext i hi
    obtain rfl : i = 0 := by omega
    simp
  have hhigh : w.extractLsb' 5 27 ++ w.extractLsb' 4 1 = w.extractLsb' 4 28 :=
    BitVec.extractLsb'_append_extractLsb'_eq_extractLsb' rfl
  have hall : w.extractLsb' 4 28 ++ w.extractLsb' 0 4 = w.extractLsb' 0 32 :=
    BitVec.extractLsb'_append_extractLsb'_eq_extractLsb' rfl
  rw [hS, hhigh, hall, BitVec.extractLsb'_eq_self]

/-- A word is a command's encoding exactly when its fields are that command's. -/
theorem eq_encode_iff {w : Word} {i : Instr} :
    w = encode i ↔ w.extractLsb' 5 27 = 0#27 ∧ w[4] = selectOf i ∧ w.extractLsb' 0 4 = opcodeOf i := by
  constructor
  · rintro rfl
    cases i with
    | extract sBit => cases sBit <;> decide
    | _ => decide
  · rintro ⟨hrsv, hsel, hop⟩
    calc w = w.extractLsb' 5 27 ++ BitVec.ofBool w[4] ++ w.extractLsb' 0 4 := word_eq_fields w
      _ = encode i := by rw [hrsv, hsel, hop, encode]

/-- The S bits and opcodes of the commands: S = 1 for opcode 0x3 only, and no reserved opcode (R92, R95). -/
theorem exists_select_opcode_iff {S : Bool} {op : BitVec 4} :
    (∃ i, S = selectOf i ∧ op = opcodeOf i) ↔
      ¬ (0x6 ≤ op.toNat ∧ op.toNat ≤ 0xE) ∧ ¬ (S = true ∧ op ≠ 3#4) := by
  constructor
  · rintro ⟨i, rfl, rfl⟩
    cases i <;> simp [selectOf, opcodeOf]
  · rintro ⟨hop, hS⟩
    have hcases : op = 0x3#4 ∨ S = false ∧ op ∈ [0x0#4, 0x1#4, 0x2#4, 0x4#4, 0x5#4, 0xF#4] := by
      revert S op; decide
    simp only [List.mem_cons, List.not_mem_nil, or_false] at hcases
    rcases hcases with rfl | ⟨rfl, rfl | rfl | rfl | rfl | rfl | rfl⟩
    · exact ⟨.extract S, rfl, rfl⟩
    · exact ⟨.nop, rfl, rfl⟩
    · exact ⟨.capchk, rfl, rfl⟩
    · exact ⟨.embed, rfl, rfl⟩
    · exact ⟨.pack, rfl, rfl⟩
    · exact ⟨.unpack, rfl, rfl⟩
    · exact ⟨.sreset, rfl, rfl⟩

/-- Settles O3: a word is rejected when its fields are no command's. -/
theorem illegalWordsByField : Obligations.IllegalWordsByField := by
  intro w
  simp only [decode_error_iff, eq_encode_iff, exists_and_left, exists_select_opcode_iff]
  rw [not_and_or, ← not_or, not_not]

end Sys2Proof
end

section
/-! The host's turn (R98, R264): one rule for each kind of line and of check. -/

namespace Sys2Proof.Machine

/-- The host's turn runs the line at its position, which then is past it. -/
theorem hostLine_of_line {s : State} {h : HostLine} (hl : s.program[s.line]? = some h) :
    hostLine s = runLine h { s with line := s.line + 1 } := by
  simp only [hostLine, hl]

theorem hostLine_past_end {s : State} (hl : s.program.length ≤ s.line) : hostLine s = .next s := by
  simp only [hostLine, List.getElem?_eq_none hl]

/-- With nothing scheduled and op = IDLE, a step runs the host's next line (log entry 2). -/
theorem step_of_idle_line {s : State} {h : HostLine} (hop : s.op = .idle) (hev : s.events = [])
    (hl : s.program[s.line]? = some h) : step s = runLine h { s with line := s.line + 1 } := by
  have hturn : step s = hostLine s := by simp only [step, hev, defaultTurn, hop]
  rw [hturn, hostLine_of_line hl]

/-- Settles O58: a scheduled turn of the host and the default turn of an idle block are the same turn. -/
theorem hostTurnExecutesNextLine : Obligations.HostTurnExecutesNextLine := by
  intro s rest
  exact ⟨fun h hl => ⟨hostLine_of_line (s := { s with events := rest }) hl,
      fun hop => step_of_idle_line (s := { s with events := [] }) hop rfl hl⟩,
    hostLine_past_end (s := { s with events := rest })⟩

/-! The lines of a host program, then the checks of an `expect` line. -/

theorem runLine_wr {loc : LocName} {v : Value} {d : Word} {s : State} (hv : v.eval s = .ok d) :
    runLine (.wr loc v) s = hostAccess (.writeWord loc.offset d) s := by
  simp only [runLine, hv]

/-- A temporary that was read into stands for its word. -/
theorem Value.eval_temp {t : Nat} {d : Word} {s : State} (ht : s.temps.read t = some d) :
    (Value.temp t).eval s = .ok d := by
  simp only [Value.eval, ht]

/-- A read line puts the data the port answers into its temporary. -/
theorem runLine_rd {loc : LocName} {t : Nat} {v : Word} {s u : State}
    (hu : hostAccess (.readWord loc.offset) s = .next u) (ha : u.answer = .data v) :
    runLine (.rd loc t) s = .next { u with temps := u.temps.write t v } := by
  simp only [runLine, hu, storeTemp, ha]

/-- A register read of an idle block, from a line of the host's program. -/
theorem runLine_rd_reg {r : Reg} {t : Nat} {s : State} (hop : s.op = .idle) :
    runLine (.rd (.reg r) t) s =
      .next { s with answer := .data (readReg r s), temps := s.temps.write t (readReg r s) } := by
  have hu : hostAccess (.readWord (LocName.reg r).offset) s = .next { s with answer := .data (readReg r s) } :=
    (hostAccess_readReg r s).trans (readLoc_of_idle hop)
  exact runLine_rd hu rfl

theorem runLine_label (l : Nat) (s : State) : runLine (.label l) s = .next s := rfl

/-- A branch whose field has its value moves the position to its label. -/
theorem runLine_ifGoto_taken {t l k : Nat} {f : Field} {v w : Word} {s : State} (ht : s.temps.read t = some w)
    (hf : f.of w = v) (hl : labelPosition s.program l = some k) :
    runLine (.ifGoto t f v l) s = .next { s with line := k } := by
  simp only [runLine, ht, hf, hl, if_true]

/-- A branch whose field has another value does nothing, whatever its label. -/
theorem runLine_ifGoto_skipped {t l : Nat} {f : Field} {v w : Word} {s : State} (ht : s.temps.read t = some w)
    (hf : f.of w ≠ v) : runLine (.ifGoto t f v l) s = .next s := by
  simp only [runLine, ht, hf, if_false]

theorem runLine_expect {e : Expectation} {b : Bool} {s : State} (he : e.holds s = .ok b) :
    runLine (.expect e) s = if b then .next s else .fault (.expectFailed e) := by
  cases b <;> simp [runLine, he]

theorem Expectation.holds_field {t : Nat} {f : Field} {v w : Word} {s : State} (ht : s.temps.read t = some w) :
    (Expectation.field t f v).holds s = .ok (decide (f.of w = v)) := by
  simp only [holds, ht, beq_eq_decide]

theorem Expectation.holds_neg {e : Expectation} {b : Bool} {s : State} (he : e.holds s = .ok b) :
    (Expectation.neg e).holds s = .ok (!b) := by
  simp only [holds, he]

theorem Expectation.holds_both {e e' : Expectation} {b b' : Bool} {s : State} (he : e.holds s = .ok b)
    (he' : e'.holds s = .ok b') : (Expectation.both e e').holds s = .ok (b && b') := by
  simp only [holds, he, he']

/-- Settles O59, line by line, then check by check. -/
theorem hostLinesMakeOneAccess : Obligations.HostLinesMakeOneAccess := by
  intro s
  refine ⟨fun _ _ => runLine_wr rfl, fun _ _ _ ht => runLine_wr (Value.eval_temp ht), fun _ _ _ _ => runLine_rd,
    fun l => runLine_label l s, fun t f v l w k ht hl => ?_, fun _ he => runLine_expect he, fun _ he => runLine_expect he,
    fun _ => rfl, fun _ _ _ _ => Expectation.holds_field, fun _ _ _ => rfl, fun _ _ _ => rfl, fun _ => rfl, fun _ => rfl,
    fun _ _ => Expectation.holds_neg, fun _ _ _ _ => Expectation.holds_both⟩
  split_ifs with hf
  · exact runLine_ifGoto_taken ht hf hl
  · exact runLine_ifGoto_skipped ht hf

end Sys2Proof.Machine
end

section
/-! The pseudo-instruction `wait_done` (R99): its three lines run one after the other, and its branch looks at the DONE that
the read line saw. -/

namespace Sys2Proof.Machine

/-- DONE of the STATUS word, as a branch sees it (R27). -/
theorem doneField_of_status (s : State) : doneField.of (readReg .status s) = (BitVec.ofBool s.done).setWidth 32 := by
  have hbit : (readReg .status s).getLsbD 1 = s.done := by
    simp only [readReg, State.statusWord, BitVec.getLsbD_append]
    simp
  have hmask : doneField.of (readReg .status s) = (readReg .status s >>> 1) &&& 1#32 := rfl
  rw [hmask, BitVec.and_one_eq_setWidth_ofBool_getLsbD, BitVec.getLsbD_ushiftRight, hbit]

theorem doneField_of_status_eq_zero {s : State} : doneField.of (readReg .status s) = 0#32 ↔ s.done = false := by
  rw [doneField_of_status]
  cases s.done <;> decide

/-- A label that no line before it declares is at its own position. -/
theorem labelPosition_of_fresh {before after : List HostLine} {l : Nat} (hl : HostLine.label l ∉ before) :
    labelPosition (before ++ .label l :: after) l = some before.length := by
  have hbefore : before.findIdx? (· == .label l) = none :=
    List.findIdx?_eq_none_iff.2 fun h hmem => beq_false_of_ne (ne_of_mem_of_not_mem hmem hl)
  simp [labelPosition, List.findIdx?_append, hbefore, List.findIdx?_cons]

/-- A run takes its first step, and goes on from there. -/
theorem run_succ_of_step {M : Host.Core} {s t : M.State} (h : M.step s = .next t) (k : Nat) :
    M.run (k + 1) s = M.run k t := by
  simp only [Host.Core.run, h]

/-- A run of one step is the step. -/
theorem run_one (M : Host.Core) (s : M.State) : M.run 1 s = M.step s := by
  cases h : M.step s <;> simp only [Host.Core.run, h]

/-- The lines of `wait_done`, where a program holds them. -/
theorem waitDone_getElem? (before after : List HostLine) (l t : Nat) {k : Nat} (hk : k < 3) :
    (before ++ pseudoWaitDone l t ++ after)[before.length + k]? = (pseudoWaitDone l t)[k]? := by
  rw [List.append_assoc, List.getElem?_append_right (Nat.le_add_right _ _), Nat.add_sub_cancel_left,
    List.getElem?_append_left hk]

/-- Where the branch of `wait_done` is next: STATUS is in the temporary `t`. -/
def waitDoneRead (t : Nat) (s : State) : State :=
  { s with
    line := s.line + 2, answer := .data (readReg .status s), temps := s.temps.write t (readReg .status s) }

/-- Three steps of an idle block from the first line of `wait_done`: past the label, the read of STATUS, the branch. -/
theorem run_waitDone {s : State} {l t : Nat} (hop : s.op = .idle) (hev : s.events = [])
    (hlines : ∀ k < 3, s.program[s.line + k]? = (pseudoWaitDone l t)[k]?) :
    Host.Core.run Sys2Proof.core 3 s = runLine (.ifGoto t doneField 0#32 l) { waitDoneRead t s with line := s.line + 3 } := by
  have hlabel : step s = .next { s with line := s.line + 1 } := step_of_idle_line hop hev (hlines 0 (by decide))
  have hread : step { s with line := s.line + 1 } = .next (waitDoneRead t s) :=
    (step_of_idle_line (s := { s with line := s.line + 1 }) hop hev (hlines 1 (by decide))).trans (runLine_rd_reg hop)
  exact (run_succ_of_step (M := Sys2Proof.core) hlabel 2).trans <|
    (run_succ_of_step (M := Sys2Proof.core) hread 1).trans <|
    (run_one Sys2Proof.core (waitDoneRead t s)).trans <|
    step_of_idle_line (s := waitDoneRead t s) hop hev (hlines 2 (by decide))

/-- Settles O60: the branch is taken exactly when the STATUS read had DONE = 0. -/
theorem waitDoneLoopsUntilDone : Obligations.WaitDoneLoopsUntilDone := by
  intro s before after l t hop hev hprog hline hfresh
  have hrun := run_waitDone hop hev fun k hk => by rw [hprog, hline, waitDone_getElem? before after l t hk]
  have ht : (waitDoneRead t s).temps.read t = some (readReg .status s) := Store.read_write_same _ _ _
  have hlabel : labelPosition s.program l = some before.length := by
    rw [hprog, List.append_assoc]
    exact labelPosition_of_fresh hfresh
  by_cases hd : s.done = true
  · have hf : doneField.of (readReg .status s) ≠ 0#32 := by simp [doneField_of_status_eq_zero, hd]
    exact ⟨_, hrun.trans (runLine_ifGoto_skipped ht hf), rfl, by simp [hd, hline]⟩
  · have hf : doneField.of (readReg .status s) = 0#32 := by simpa [doneField_of_status_eq_zero] using hd
    exact ⟨_, hrun.trans (runLine_ifGoto_taken ht hf hlabel), rfl, by simp [hd]⟩

end Sys2Proof.Machine
end

section
/-! The laws of pack and unpack (R117 to R120): each is read off bit by bit, a bit being bit `k` of lane `i`. -/

namespace Sys2Proof.Machine

/-- Bit `k` of lane `i` of a packed pixel: the low field is group `i`, the upper six bits are the channel's (R115, R119). -/
theorem getLsbD_pack_lane (P : Word) (B : Byte) {i k : Nat} (hi : i < 4) (hk : k < 8) :
    (pack P B).getLsbD (8 * i + k) = if k < 2 then B.getLsbD (2 * i + k) else P.getLsbD (8 * i + k) := by
  rw [getLsbD_pack P B (by omega), show (8 * i + k) % 8 = k by omega, show (8 * i + k) / 8 = i by omega]

/-- Bit `k` of group `i` of an unpacked byte is bit `k` of channel `i` (R116, R119). -/
theorem getLsbD_unpack_lane (P : Word) {i k : Nat} (hi : i < 4) (hk : k < 2) :
    (unpack P).getLsbD (2 * i + k) = P.getLsbD (8 * i + k) := by
  rw [getLsbD_unpack P (by omega), show (2 * i + k) % 2 = k by omega, show (2 * i + k) / 2 = i by omega]

/-- The mask of the bits that encoding preserves keeps the upper six bits of each channel. -/
theorem getLsbD_hi6Mask : ∀ j < 32, (0xFCFCFCFC#32).getLsbD j = decide (2 ≤ j % 8) := by decide

/-- R117: extraction inverts storage. -/
theorem unpack_pack (P : Word) (B : Byte) : unpack (pack P B) = B := by
  refine BitVec.eq_of_getLsbD_eq fun j hj => ?_
  have hlow : j % 2 < 2 := Nat.mod_lt _ two_pos
  rw [getLsbD_unpack _ hj, getLsbD_pack_lane P B (by omega) (by omega), if_pos hlow, Nat.div_add_mod]

/-- R117: identity. -/
theorem pack_unpack (P : Word) : pack P (unpack P) = P := by
  refine BitVec.eq_of_getLsbD_eq fun j hj => ?_
  rw [getLsbD_pack _ _ hj]
  split_ifs with hlow
  · rw [getLsbD_unpack_lane P (by omega) hlow, Nat.div_add_mod]
  · rfl

/-- R117: colour preservation. -/
theorem pack_and_hi6Mask (P : Word) (B : Byte) : pack P B &&& 0xFCFCFCFC#32 = P &&& 0xFCFCFCFC#32 := by
  refine BitVec.eq_of_getLsbD_eq fun j hj => ?_
  rw [BitVec.getLsbD_and, BitVec.getLsbD_and, getLsbD_pack P B hj, getLsbD_hi6Mask j hj]
  by_cases hlow : j % 8 < 2
  · simp [Nat.not_le.2 hlow]
  · rw [if_neg hlow]

/-- R117: the last write wins. -/
theorem pack_pack (P : Word) (B1 B2 : Byte) : pack (pack P B1) B2 = pack P B2 := by
  refine BitVec.eq_of_getLsbD_eq fun j hj => ?_
  rw [getLsbD_pack _ B2 hj, getLsbD_pack P B2 hj]
  split_ifs with hlow
  · rfl
  · rw [getLsbD_pack P B1 hj, if_neg hlow]

/-- Settles O36 with the four laws above. -/
theorem packUnpackLaws : Obligations.PackUnpackLaws := fun P B B1 B2 =>
  ⟨unpack_pack P B, pack_unpack P, pack_and_hi6Mask P B, pack_pack P B1 B2⟩

/-- Two channels, groups or fields are equal when each bit of the one is that bit of the other. -/
theorem extractLsb'_eq_iff {n m : Nat} {x : BitVec n} {y : BitVec m} {a b len : Nat} :
    x.extractLsb' a len = y.extractLsb' b len ↔ ∀ k < len, x.getLsbD (a + k) = y.getLsbD (b + k) := by
  constructor
  · intro h k hk
    simpa [hk] using congrArg (·.getLsbD k) h
  · intro h
    refine BitVec.eq_of_getLsbD_eq fun k hk => ?_
    simpa [hk] using h k hk

/-- Settles O37: bit by bit, each lane reads its own channel and its own group only. -/
theorem lanesAreIndependent : Obligations.LanesAreIndependent := by
  intro P P' B B' i hi
  simp only [extractLsb'_eq_iff]
  refine ⟨fun hP => ⟨fun hB k hk => ?_, fun k hk => ?_⟩, fun k hk => ?_, fun k hk => ?_⟩
  · rw [getLsbD_pack_lane P B hi hk, getLsbD_pack_lane P' B' hi hk]
    split_ifs with hlow
    · exact hB k hlow
    · exact hP k hk
  · rw [getLsbD_unpack_lane P hi hk, getLsbD_unpack_lane P' hi hk]
    exact hP k (by omega)
  · rw [getLsbD_pack_lane P B hi (by omega), if_pos hk]
  · rw [Nat.add_assoc, getLsbD_pack_lane P B hi (by omega), if_neg (by omega)]

/-- R120: the marker is the byte 0. -/
theorem empty_iff {B : Byte} : empty B = true ↔ B = 0x00#8 := beq_iff_eq

/-- R118: storing 0 clears the LSB fields. -/
theorem pack_zero (P : Word) : pack P 0x00#8 = P &&& 0xFCFCFCFC#32 := by
  refine BitVec.eq_of_getLsbD_eq fun j hj => ?_
  rw [getLsbD_pack _ _ hj, BitVec.getLsbD_and, getLsbD_hi6Mask j hj]
  by_cases hlow : j % 8 < 2
  · simp [hlow, Nat.not_le.2 hlow]
  · simp [hlow, Nat.not_lt.1 hlow]

/-- Every bit of a pixel is either preserved by encoding or in an LSB field. -/
theorem hi6Mask_or_lsb2Mask (P : Word) : P &&& 0xFCFCFCFC#32 ||| P &&& 0x03030303#32 = P := by
  rw [← BitVec.and_or_distrib_left]
  exact BitVec.and_allOnes

/-- A pixel is its preserved bits exactly when its LSB fields are 0. -/
theorem and_hi6Mask_eq_self_iff {P : Word} : P &&& 0xFCFCFCFC#32 = P ↔ P &&& 0x03030303#32 = 0#32 := by
  constructor
  · intro h
    rw [← h, BitVec.and_assoc]
    exact BitVec.and_zero
  · intro h
    simpa [h] using hi6Mask_or_lsb2Mask P

/-- R120: a pixel holds the byte 0 exactly when storing 0 leaves it as it is. -/
theorem unpack_eq_zero_iff {P : Word} : unpack P = 0x00#8 ↔ P &&& 0x03030303#32 = 0#32 := by
  rw [← and_hi6Mask_eq_self_iff, ← pack_zero]
  constructor
  · intro h
    rw [← h, pack_unpack]
  · intro h
    rw [← h, unpack_pack]

/-- Settles O39: EMPTY of a pixel is `unpack_eq_zero_iff`, and storing 0 is `pack_zero`. -/
theorem emptyMarkerIsZeroLsbFields : Obligations.EmptyMarkerIsZeroLsbFields :=
  ⟨fun _ => empty_iff, fun _ => empty_iff.trans unpack_eq_zero_iff, fun P => ⟨pack_zero P, unpack_pack P 0x00#8⟩⟩

end Sys2Proof.Machine
end

section
/-! The channel update in numbers (R113). -/

namespace Sys2Proof.Machine

/-- The preserved part of a channel is its upper six bits, in place (R111). -/
theorem hi6_eq_shift (c : Byte) : hi6 c = c >>> 2 <<< 2 := by
  rw [BitVec.shiftLeft_ushiftRight]
  rfl

theorem hi6_toNat (c : Byte) : (hi6 c).toNat = c.toNat / 4 * 4 := by
  have hc := c.isLt
  rw [hi6_eq_shift, BitVec.toNat_shiftLeft, BitVec.toNat_ushiftRight, Nat.shiftLeft_eq, Nat.shiftRight_eq_div_pow]
  omega

/-- A group fits under the preserved part of a channel, so the two are joined without a carry (R113). -/
theorem setlsb2_toNat (c : Byte) (g : Pair) : (setlsb2 c g).toNat = c.toNat / 4 * 4 + g.toNat := by
  have hjoin := Nat.shiftLeft_add_eq_or_of_lt g.isLt (c.toNat / 4)
  rw [setlsb2, BitVec.toNat_or, hi6_toNat, BitVec.toNat_setWidth_of_le (by decide)]
  simpa [Nat.shiftLeft_eq] using hjoin.symm

/-- Settles O38: the first formula is the definition, the second is `setlsb2_toNat`. -/
theorem channelUpdateEqualsSourceFormula : Obligations.ChannelUpdateEqualsSourceFormula := by
  intro c g
  have hsum := setlsb2_toNat c g
  have hlt := (setlsb2 c g).isLt
  exact ⟨rfl, by omega, by omega⟩

end Sys2Proof.Machine
end

section
/-! CAPCHK (R131 to R133): its completion in numbers, and CAP_OK against the pixel count that CAPACITY reads. -/

namespace Sys2Proof.Machine

theorem cap_eq_true_iff {L n : Nat} : cap L n = true ↔ L ≤ n := decide_eq_true_iff

theorem cap_eq_false_iff {L n : Nat} : cap L n = false ↔ n < L := by
  rw [← Bool.not_eq_true, cap_eq_true_iff, Nat.not_le]

/-- CAPCHK always completes with NONE, and CAP_OK is all it writes besides (R131). -/
theorem exec_capchk (s : State) :
    exec .capchk s = .next (complete .none { s with capOk := cap s.len s.pixelCount }) := rfl

/-- CAPACITY reads the pixel count that CAPCHK compares L with (R36, R131). -/
theorem readReg_capacity_toNat (s : State) : (readReg .capacity s).toNat = s.pixelCount := capacityWord_toNat s

/-- Settles O33: CAP_OK is `cap` of L and the pixel count, which CAPACITY reads without a wrap, and the boundary is that of
`cap`. -/
theorem capchkSetsCapOk : Obligations.CapchkSetsCapOk := by
  refine ⟨decode_encode .capchk, fun s => ⟨_, exec_capchk s, rfl, ?_, fun hfull => ?_, fun hover => ?_⟩⟩
  · rw [readReg_capacity_toNat]
    rfl
  · exact cap_eq_true_iff.mpr (Nat.le_of_eq hfull)
  · exact cap_eq_false_iff.mpr (Nat.lt_of_succ_le (Nat.le_of_eq hover.symm))

end Sys2Proof.Machine
end

section
/-! PACK (R150): pack as an `or` of the bits it preserves and the byte's groups, each in its lane (R115). -/

namespace Sys2Proof.Machine

/-- The bits that packing preserves and those it takes from the byte are joined by `or`; the pixel 0 has none to preserve. -/
theorem pack_eq_or (P : Word) (B : Byte) : pack P B = (P &&& 0xFCFCFCFC#32) ||| pack 0#32 B := by
  refine BitVec.eq_of_getLsbD_eq fun j hj => ?_
  rw [BitVec.getLsbD_or, BitVec.getLsbD_and, getLsbD_hi6Mask j hj, getLsbD_pack P B hj, getLsbD_pack 0#32 B hj]
  by_cases hlow : j % 8 < 2
  · simp [hlow, Nat.not_le.2 hlow]
  · simp [hlow, Nat.not_lt.1 hlow]

/-- A channel whose preserved bits are 0 is the group alone (R113). -/
theorem setlsb2_zero : ∀ g : Pair, setlsb2 0#8 g = 0#6 ++ g := by decide

/-- A lane appended as a whole is its upper and its lower bits appended in turn. -/
theorem append_lane {n : Nat} (x : BitVec n) (hi : BitVec 6) (lo : Pair) :
    (x ++ (hi ++ lo) : BitVec (n + 8)) = x ++ hi ++ lo :=
  BitVec.append_assoc'

/-- Packing into the pixel 0 puts each group of the byte in its lane (R114, R115). -/
theorem pack_zero_pixel (B : Byte) :
    pack 0#32 B = 0#6 ++ B.extractLsb' 6 2 ++ 0#6 ++ B.extractLsb' 4 2 ++ 0#6 ++ B.extractLsb' 2 2 ++ 0#6 ++
      B.extractLsb' 0 2 := by
  have hc : ∀ i, channel 0#32 i = 0#8 := fun i => by simp [channel]
  have hg : ∀ i, group B i = B.extractLsb' (2 * i) 2 := fun i => BitVec.setWidth_ushiftRight_eq_extractLsb
  simp only [pack, hc, hg, setlsb2_zero, append_lane]

/-- Settles O34: PACK stores `pack` of its operands, which is that `or`. -/
theorem packWritesPixR : Obligations.PackWritesPixR := by
  refine ⟨decode_encode .pack, fun s => ?_⟩
  rw [← pack_zero_pixel, ← pack_eq_or]
  rfl

end Sys2Proof.Machine
end

section
/-! EMBED (R141 to R148): past its checks it stops at an unwritten entry or succeeds, and a success fixes the whole next
state. -/

namespace Sys2Proof.Machine

/-- The pixels of the scan have distinct storage indexes (R67). -/
theorem nodup_map_idx_scan (W H : Nat) : ((scan W H).map fun p => idx W p.1 p.2).Nodup := by
  obtain ⟨-, hinj, -⟩ := storageIndexIsBijective W H _ le_rfl
  refine List.Nodup.map_on (fun p hp q hq he => ?_) (List.nodup_range.product List.nodup_range)
  obtain ⟨hpx, hpy⟩ := mem_scan.1 hp
  obtain ⟨hqx, hqy⟩ := mem_scan.1 hq
  obtain ⟨hx, hy⟩ := hinj _ _ _ _ hpx hpy hqx hqy he
  exact Prod.ext hx hy

/-- Pixel (x, y) has the scan position x × H + y (R142). -/
theorem scan_getElem?_position {W H x y : Nat} (hx : x < W) (hy : y < H) : (scan W H)[x * H + y]? = some (x, y) := by
  have hj : x * H + y < W * H := by
    calc x * H + y < x * H + H := by omega
      _ = (x + 1) * H := (Nat.succ_mul x H).symm
      _ ≤ W * H := Nat.mul_le_mul_right H hx
  rw [scan_getElem? hj, Nat.mul_comm x H, Nat.mul_add_div (by omega), Nat.div_eq_of_lt hy, Nat.mul_add_mod,
    Nat.mod_eq_of_lt hy, Nat.add_zero]

/-- EMBED past its checks, its walk reading an unwritten entry, faults as the walk does (U4). -/
theorem execEmbed_of_walk_error {s : State} {f : Fault} (hf : s.pixelCount ≤ s.nMax.n) (hc : s.len ≤ s.pixelCount)
    (hs : embedScan s.width.toNat s.len (scan s.width.toNat s.height.toNat) s.mem 0 = .error f) :
    execEmbed s = .fault f := by
  rw [execEmbed_walk hf hc, hs]

/-- EMBED faults in its walk only (U4). -/
theorem execEmbed_fault {s : State} {f : Fault} (h : execEmbed s = .fault f) :
    s.pixelCount ≤ s.nMax.n ∧ s.len ≤ s.pixelCount ∧
      embedScan s.width.toNat s.len (scan s.width.toNat s.height.toNat) s.mem 0 = .error f := by
  rcases Nat.lt_or_ge s.nMax.n s.pixelCount with hf | hf
  · rw [execEmbed_of_badDim hf] at h
    cases h
  rcases Nat.lt_or_ge s.pixelCount s.len with hc | hc
  · rw [execEmbed_of_capacity hf hc] at h
    cases h
  refine ⟨hf, hc, ?_⟩
  cases hs : embedScan s.width.toNat s.len (scan s.width.toNat s.height.toNat) s.mem 0 with
  | error g =>
    rw [execEmbed_of_walk_error hf hc hs] at h
    rw [Host.Outcome.fault.inj h]
  | ok r =>
    rw [execEmbed_of_walk hf hc hs] at h
    cases h

/-- EMBED past its checks names an unwritten pixel of the image, or an unwritten byte of the message, or succeeds. -/
theorem execEmbed_fault_or_success {s : State} (hf : s.pixelCount ≤ s.nMax.n) (hc : s.len ≤ s.pixelCount) :
    (∃ i, execEmbed s = .fault (.engineReadUnwritten .imgIn i) ∧ i < s.pixelCount ∧ s.mem.imgIn.read i = none) ∨
    (∃ j, execEmbed s = .fault (.engineReadUnwritten .msgIn j) ∧ j < s.len ∧ s.mem.msgIn.read j = none) ∨
    ∃ t, execEmbed s = .next t ∧ t.err = .none := by
  cases hs : embedScan s.width.toNat s.len (scan s.width.toNat s.height.toNat) s.mem 0 with
  | error f =>
    have hfault := execEmbed_of_walk_error hf hc hs
    rcases embedScan_error hs with ⟨j, rfl, hj, hn⟩ | ⟨p, hp, rfl, hn⟩
    · exact .inr (.inl ⟨j, hfault, hj, hn⟩)
    · exact .inl ⟨_, hfault, idx_lt_of_mem_scan hp, hn⟩
  | ok r => exact .inr (.inr ⟨_, execEmbed_of_walk hf hc hs, rfl⟩)

/-- The next state of a successful EMBED: the pixel at scan position j holds byte j of the message, or the empty marker from
L on; beyond the image IMG_OUT is kept (R141, R142). -/
theorem execEmbed_success {s t : State} (h : execEmbed s = .next t) (he : t.err = .none) : ∃ out : Store Word,
    t = { s with
      capOk := true, err := .none, op := .idle, done := true, resultLen := s.msgLen, mem := { s.mem with imgOut := out } } ∧
    (∀ x < s.width.toNat, ∀ y < s.height.toNat, ∃ p b,
      s.mem.imgIn.read (idx s.width.toNat x y) = some p ∧
      (if x * s.height.toNat + y < s.msgLen.toNat then s.mem.msgIn.read (x * s.height.toNat + y) = some b else b = 0x00#8) ∧
      out.read (idx s.width.toNat x y) = some (pack p b)) ∧
    ∀ i, s.pixelCount ≤ i → out.read i = s.mem.imgOut.read i := by
  have hlen := execEmbed_resultLen h he
  rcases execEmbed_next h with ⟨-, rfl⟩ | ⟨-, -, rfl⟩ | ⟨-, -, m, k, hs, rfl⟩
  · cases he
  · cases he
  obtain ⟨-, hm, hkept, -, hwritten⟩ := embedScan_ok (Nat.zero_le _) hs
  refine ⟨m.imgOut, ?_, fun x hx y hy => ?_, fun i hi => ?_⟩
  · rw [← hlen, ← hm]
    rfl
  · obtain ⟨hj, hp⟩ := List.getElem?_eq_some_iff.1 (scan_getElem?_position hx hy)
    obtain ⟨b, p, hb, himg, hout⟩ := hwritten (nodup_map_idx_scan _ _) _ hj
    rw [hp] at himg hout
    rw [Nat.zero_add] at hb
    exact ⟨p, b, himg, hb, hout⟩
  · exact hkept i fun p hp => Nat.ne_of_lt (Nat.lt_of_lt_of_le (idx_lt_of_mem_scan hp) hi)

/-- Settles O42: the walk of a ready EMBED meets no unwritten entry, so it succeeds. -/
theorem embedWritesClosedForm : Obligations.EmbedWritesClosedForm := by
  intro s hr
  rcases execEmbed_fault_or_success hr.imageFits hr.messageFits with ⟨i, -, hi, hn⟩ | ⟨j, -, hj, hn⟩ | ⟨t, ht, he⟩
  · obtain ⟨p, hp⟩ := hr.pixels i hi
    cases hn.symm.trans hp
  · obtain ⟨b, hb⟩ := hr.bytes j hj
    cases hn.symm.trans hb
  · obtain ⟨out, rfl, hout⟩ := execEmbed_success ht he
    exact ⟨out, ht, hout⟩

/-- Settles O43: a packed pixel keeps the mask of its colour, and one packed with 0 unpacks to 0. -/
theorem embedPreservesColourAndMarksRest : Obligations.EmbedPreservesColourAndMarksRest := by
  intro s t h he
  obtain ⟨out, rfl, hpix, -⟩ := execEmbed_success h he
  refine ⟨fun i hi => ?_, fun x hx y hy hL => ?_⟩
  · obtain ⟨-, -, hsurj⟩ := storageIndexIsBijective s.width.toNat s.height.toNat _ le_rfl
    obtain ⟨x, y, hx, hy, rfl⟩ := hsurj i hi
    obtain ⟨p, b, hp, -, hq⟩ := hpix x hx y hy
    exact ⟨p, pack p b, hp, hq, pack_and_hi6Mask p b⟩
  · obtain ⟨p, b, -, hb, hq⟩ := hpix x hx y hy
    rw [if_neg (Nat.not_lt.2 hL)] at hb
    exact ⟨pack p b, hq, empty_iff.2 (by rw [unpack_pack, hb])⟩

/-- Settles O44: in each case of EMBED, only the walk reads MSG_IN, and it reads it below L. -/
theorem embedIgnoresBytesBeyondLength : Obligations.EmbedIgnoresBytesBeyondLength := by
  intro s other ho
  have hwalk := embedScan_msgIn_congr (W := s.width.toNat) (len := s.len) (ps := scan s.width.toNat s.height.toNat)
    (k := 0) ho
  refine ⟨fun f h => ?_, fun t h => ?_⟩
  · obtain ⟨hf, hc, hs⟩ := execEmbed_fault h
    rw [hs] at hwalk
    exact execEmbed_of_walk_error hf hc hwalk
  · rcases execEmbed_next h with ⟨hf, rfl⟩ | ⟨hf, hc, rfl⟩ | ⟨hf, hc, m, k, hs, rfl⟩
    · exact execEmbed_of_badDim hf
    · exact execEmbed_of_capacity hf hc
    · rw [hs] at hwalk
      exact execEmbed_of_walk hf hc hwalk

/-- A successful EMBED has read every pixel of the image and every byte of the message, so it was ready (R141, R250). -/
theorem embedReady_of_success {s t : State} (hf : s.pixelCount ≤ s.nMax.n) (hc : s.len ≤ s.pixelCount)
    (h : execEmbed s = .next t) (he : t.err = .none) : s.EmbedReady := by
  obtain ⟨out, -, hpix, -⟩ := execEmbed_success h he
  refine ⟨hf, hc, fun i hi => ?_, fun j hj => ?_⟩
  · obtain ⟨-, -, hsurj⟩ := storageIndexIsBijective s.width.toNat s.height.toNat _ le_rfl
    obtain ⟨x, y, hx, hy, rfl⟩ := hsurj i hi
    obtain ⟨p, b, hp, -⟩ := hpix x hx y hy
    exact ⟨p, hp⟩
  · have hjn : j < s.width.toNat * s.height.toNat := Nat.lt_of_lt_of_le hj hc
    have hH : 0 < s.height.toNat := Nat.pos_of_mul_pos_left (Nat.zero_lt_of_lt hjn)
    have hx : j / s.height.toNat < s.width.toNat := Nat.div_lt_of_lt_mul (Nat.mul_comm _ _ ▸ hjn)
    obtain ⟨p, b, -, hb, -⟩ := hpix (j / s.height.toNat) hx (j % s.height.toNat) (Nat.mod_lt j hH)
    rw [Nat.div_add_mod', if_pos hj] at hb
    exact ⟨b, hb⟩

/-- Settles O45: a success would have made the state ready. -/
theorem embedFaultsOnUnwrittenInput : Obligations.EmbedFaultsOnUnwrittenInput := by
  intro s hf hc hnr
  rcases execEmbed_fault_or_success hf hc with himg | hmsg | ⟨t, ht, he⟩
  · exact .inl himg
  · exact .inr hmsg
  · exact absurd (embedReady_of_success hf hc ht he) hnr

end Sys2Proof.Machine
end

section
/-! UNPACK (R175): the byte by its four groups, each the LSB field of its channel (R116). -/

namespace Sys2Proof.Machine

/-- Group `i` of an unpacked byte is the LSB field of channel `i` (R116). -/
theorem extractLsb'_unpack (P : Word) {i : Nat} (hi : i < 4) :
    (unpack P).extractLsb' (2 * i) 2 = P.extractLsb' (8 * i) 2 :=
  extractLsb'_eq_iff.2 fun _ hk => getLsbD_unpack_lane P hi hk

/-- A byte is its four groups, the last one first (R114). -/
theorem byte_eq_groups (B : Byte) :
    B = B.extractLsb' 6 2 ++ B.extractLsb' 4 2 ++ B.extractLsb' 2 2 ++ B.extractLsb' 0 2 := by
  have h64 : B.extractLsb' 6 2 ++ B.extractLsb' 4 2 = B.extractLsb' 4 4 :=
    BitVec.extractLsb'_append_extractLsb'_eq_extractLsb' rfl
  have h42 : B.extractLsb' 4 4 ++ B.extractLsb' 2 2 = B.extractLsb' 2 6 :=
    BitVec.extractLsb'_append_extractLsb'_eq_extractLsb' rfl
  have h20 : B.extractLsb' 2 6 ++ B.extractLsb' 0 2 = B.extractLsb' 0 8 :=
    BitVec.extractLsb'_append_extractLsb'_eq_extractLsb' rfl
  rw [h64, h42, h20, BitVec.extractLsb'_eq_self]

/-- R116 in closed form. -/
theorem unpack_eq_lsbFields (P : Word) :
    unpack P = P.extractLsb' 24 2 ++ P.extractLsb' 16 2 ++ P.extractLsb' 8 2 ++ P.extractLsb' 0 2 := by
  rw [← extractLsb'_unpack P (i := 3) (by decide), ← extractLsb'_unpack P (i := 2) (by decide),
    ← extractLsb'_unpack P (i := 1) (by decide), ← extractLsb'_unpack P (i := 0) (by decide)]
  exact byte_eq_groups (unpack P)

/-- UNPACK always completes with NONE, and BYTE_R.BYTE is all it writes besides (R175). -/
theorem exec_unpack (s : State) : exec .unpack s = .next (complete .none { s with byteR := unpack s.pixA }) := rfl

/-- BYTE_R of the empty marker reads 0x100: EMPTY is set and BYTE is 0 (R41, R175). -/
theorem readReg_byteR_of_marker {s : State} (h : s.byteR = 0x00#8) : readReg .byteR s = 0x00000100#32 := by
  simp only [readReg, State.byteRWord, h]
  decide

/-- Settles O35: UNPACK stores `unpack` of PIX_A, which is the closed form, and is 0 where the four fields are. -/
theorem unpackWritesByteR : Obligations.UnpackWritesByteR := by
  refine ⟨decode_encode .unpack, fun s => ⟨_, exec_unpack s, ?_, rfl, fun hz => ?_⟩⟩
  · rw [← unpack_eq_lsbFields]
    rfl
  · exact readReg_byteR_of_marker (unpack_eq_zero_iff.2 hz)

end Sys2Proof.Machine
end

section
/-! EXTRACT (R161 to R170): past its check it stops at an unwritten pixel that its scan reaches or succeeds, and a success
fixes the whole next state. -/

namespace Sys2Proof.Machine

/-- The bytes that the image EXTRACT decodes holds (R162). -/
def State.hiddenBytes (sBit : Bool) (s : State) : List Byte :=
  imageBytes (s.mem.source sBit) s.width.toNat s.height.toNat

theorem hiddenBytes_length_le (sBit : Bool) (s : State) : (s.hiddenBytes sBit).length ≤ s.pixelCount :=
  imageBytes_length_le _ _ _

/-- RESULT_LEN holds the number of bytes without a wrap (R37, R164). -/
theorem hiddenBytes_length_toNat (sBit : Bool) (s : State) :
    (BitVec.ofNat 32 (s.hiddenBytes sBit).length).toNat = (s.hiddenBytes sBit).length := by
  have hbytes := hiddenBytes_length_le sBit s
  have hpixels := pixelCount_le s
  exact Nat.mod_eq_of_lt (by omega)

/-- EXTRACT past its check names an unwritten pixel that its scan reaches, or succeeds (R161, U4). -/
theorem execExtract_fault_or_success {sBit : Bool} {s : State} (hf : s.pixelCount ≤ s.nMax.n) :
    (∃ x < s.width.toNat, ∃ y < s.height.toNat,
      execExtract sBit s = .fault (.engineReadUnwritten (sourceBuf sBit) (idx s.width.toNat x y)) ∧
      (s.mem.source sBit).read (idx s.width.toNat x y) = none ∧
      scanReaches (s.mem.source sBit) s.width.toNat x y) ∨
    ∃ t, execExtract sBit s = .next t ∧ t.err = .none := by
  rw [execExtract_walk hf]
  split
  next f hs =>
    obtain ⟨x, hx, y, hy, rfl, hn, hreach⟩ := extractScan_error hs
    exact .inl ⟨x, List.mem_range.1 hx, y, hy, rfl, hn, hreach⟩
  next => exact .inr ⟨_, rfl, rfl⟩

/-- The next state of a successful EXTRACT: the hidden bytes stand in MSG_OUT from entry 0 on, and RESULT_LEN is their
number (R162). -/
theorem execExtract_success {sBit : Bool} {s t : State} (h : execExtract sBit s = .next t) (he : t.err = .none) :
    s.pixelCount ≤ s.nMax.n ∧
    t = { s with
      err := .none, op := .idle, done := true, resultLen := BitVec.ofNat 32 (s.hiddenBytes sBit).length,
      mem := { s.mem with msgOut := s.mem.msgOut.writeList 0 (s.hiddenBytes sBit) } } := by
  rcases execExtract_next h with ⟨-, rfl⟩ | ⟨hf, ht⟩
  · cases he
  · exact ⟨hf, ht⟩

/-- The values of a list written from entry 0 on are read back by their position. -/
theorem Store.read_writeList_zero {α : Type} (st : Store α) (vs : List α) {k : Nat} (hk : k < vs.length) :
    (st.writeList 0 vs).read k = some vs[k] := by
  rw [← Store.read_writeList_at st 0 vs hk, Nat.zero_add]

/-- A list written from entry 0 on leaves the entries past its end. -/
theorem Store.read_writeList_zero_above {α : Type} (st : Store α) (vs : List α) {k : Nat} (hk : vs.length ≤ k) :
    (st.writeList 0 vs).read k = st.read k :=
  Store.read_writeList_above st 0 vs (by rwa [Nat.zero_add])

/-- Settles O46: the scan of a ready EXTRACT meets no unwritten pixel, so it succeeds. -/
theorem extractWritesClosedForm : Obligations.ExtractWritesClosedForm := by
  intro sBit s hr bytes
  rcases execExtract_fault_or_success (sBit := sBit) hr.imageFits with ⟨x, hx, y, hy, -, hn, hreach⟩ | ⟨t, ht, he⟩
  · obtain ⟨p, hp⟩ := hr.pixels x hx y hy hreach
    cases hn.symm.trans hp
  · obtain ⟨-, rfl⟩ := execExtract_success ht he
    exact ⟨_, ht, hiddenBytes_length_le sBit s, fun k hk => Store.read_writeList_zero _ _ hk,
      fun k hk => Store.read_writeList_zero_above _ _ hk⟩

/-- Settles O47: every byte of the closed form is one of the image's bytes, none of which is 0. -/
theorem extractBoundedAndZeroFree : Obligations.ExtractBoundedAndZeroFree := by
  intro sBit s t h he
  obtain ⟨hf, rfl⟩ := execExtract_success h he
  rw [hiddenBytes_length_toNat]
  exact ⟨hiddenBytes_length_le sBit s, hf,
    fun k hk => ⟨_, Store.read_writeList_zero _ _ hk, imageBytes_zeroFree (List.getElem_mem hk)⟩,
    fun k hk => Store.read_writeList_zero_above _ _ hk, rfl, rfl, rfl, rfl, rfl, rfl⟩

/-- EXTRACT's walk down a column that ends has read its first row, and goes on past a byte other than the empty marker
(R161). -/
theorem extractColumn_cons_ok {b : Buf} {src : Store Word} {W x y : Nat} {ys : List Nat} {out : Store Byte} {k : Nat}
    {r : Store Byte × Nat} (h : extractColumn b src W x (y :: ys) out k = .ok r) :
    ∃ p, src.read (idx W x y) = some p ∧
      (unpack p ≠ 0x00#8 → extractColumn b src W x ys (out.write k (unpack p)) (k + 1) = .ok r) := by
  rw [extractColumn] at h
  split at h
  · cases h
  next p hp =>
    refine ⟨p, engineRead_ok hp, fun hne => ?_⟩
    rwa [if_neg (mt empty_iff.1 hne)] at h

/-- EXTRACT's walk down a column that ends has read the row that stands after rows that all hold a byte. -/
theorem extractColumn_ok_written {b : Buf} {src : Store Word} {W x y : Nat} {pre post : List Nat} {out : Store Byte}
    {k : Nat} {r : Store Byte × Nat} (h : extractColumn b src W x (pre ++ y :: post) out k = .ok r)
    (hpre : ∀ y' ∈ pre, ∃ p, src.read (idx W x y') = some p ∧ unpack p ≠ 0x00#8) :
    ∃ p, src.read (idx W x y) = some p := by
  induction pre generalizing out k with
  | nil =>
    obtain ⟨p, hp, -⟩ := extractColumn_cons_ok h
    exact ⟨p, hp⟩
  | cons y' pre ih =>
    obtain ⟨p, hp, hrest⟩ := extractColumn_cons_ok h
    obtain ⟨p', hp', hne⟩ := hpre y' List.mem_cons_self
    obtain rfl : p = p' := Option.some.inj (hp.symm.trans hp')
    exact ih (hrest hne) fun z hz => hpre z (List.mem_cons_of_mem _ hz)

/-- EXTRACT's walk that ends has walked each of its columns to an end. -/
theorem extractScan_ok_column {b : Buf} {src : Store Word} {W H x : Nat} {xs : List Nat} {out : Store Byte} {k : Nat}
    {r : Store Byte × Nat} (h : extractScan b src W H xs out k = .ok r) (hx : x ∈ xs) :
    ∃ out' k' r', extractColumn b src W x (List.range H) out' k' = .ok r' := by
  induction xs generalizing out k with
  | nil => cases hx
  | cons x' rest ih =>
    unfold extractScan at h
    split at h
    · cases h
    next hcol =>
      rcases List.mem_cons.1 hx with rfl | hrest
      · exact ⟨_, _, _, hcol⟩
      · exact ih h hrest

/-- A successful EXTRACT has read every pixel that its scan reaches, so it was ready (R161, R251). -/
theorem extractReady_of_success {sBit : Bool} {s t : State} (h : execExtract sBit s = .next t) (he : t.err = .none) :
    s.ExtractReady sBit := by
  obtain ⟨hf, -⟩ := execExtract_success h he
  obtain ⟨out, k, hs, -⟩ := execExtract_next_walk hf h
  refine ⟨hf, fun x hx y hy hreach => ?_⟩
  obtain ⟨_, _, _, hcol⟩ := extractScan_ok_column hs (List.mem_range.2 hx)
  obtain ⟨pre, post, hsplit⟩ := List.append_of_mem (List.mem_range.2 hy)
  obtain ⟨-, hpre⟩ := range_split hsplit
  rw [hsplit] at hcol
  exact extractColumn_ok_written hcol fun y' hy' => hreach y' ((hpre y').1 hy')

/-- Settles O48: a success would have made the state ready. -/
theorem extractFaultsOnUnwrittenPixel : Obligations.ExtractFaultsOnUnwrittenPixel := by
  intro sBit s hf hnr
  rcases execExtract_fault_or_success (sBit := sBit) hf with ⟨x, hx, y, hy, hfault, hn, hreach⟩ | ⟨t, ht, he⟩
  · exact ⟨x, y, hx, hy, hreach, hn, hfault⟩
  · exact absurd (extractReady_of_success ht he) hnr

end Sys2Proof.Machine
end

section
/-! The zero-free prefixes of the columns of a sequence of bytes laid out in scan order (R162, R166): up to its first zero
byte they give the sequence back, and what follows comes from the columns after that byte's. -/

namespace Sys2Proof.Machine

/-- Column `x`, of height `H`, of the bytes `f` in scan order, up to its first zero byte (R166). -/
def columnSlice (f : Nat → Byte) (H x : Nat) : List Byte :=
  ((List.range H).map fun y => f (x * H + y)).takeWhile fun b => b != 0x00#8

/-- The zero-free prefixes of `W` columns, in order (R166). -/
def slicePrefixes (f : Nat → Byte) (W H : Nat) : List Byte := (List.range W).flatMap (columnSlice f H)

/-- Those of the columns after the one that holds position `j` (R166). -/
def laterPrefixes (f : Nat → Byte) (W H j : Nat) : List Byte :=
  (List.range' (j / H + 1) (W - (j / H + 1))).flatMap (columnSlice f H)

variable {f : Nat → Byte} {W H : Nat}

/-- A column whose first zero byte is in row `r`, or that has none where `r` is `H`, gives its rows before `r`. -/
theorem columnSlice_eq_map {x r : Nat} (hr : r ≤ H) (hnz : ∀ y < r, f (x * H + y) ≠ 0x00#8)
    (hz : r < H → f (x * H + r) = 0x00#8) : columnSlice f H x = (List.range r).map fun y => f (x * H + y) := by
  obtain ⟨n, rfl⟩ := Nat.exists_eq_add_of_le hr
  have hkept : ∀ b ∈ (List.range r).map fun y => f (x * (r + n) + y), (b != 0x00#8) = true := by
    simpa using hnz
  rw [columnSlice, List.range_add, List.map_append, List.takeWhile_append_of_pos hkept]
  cases n with
  | zero => simp
  | succ n => simp [List.range_succ_eq_map, hz]

/-- A column gives nothing exactly when it begins with a zero byte. -/
theorem columnSlice_eq_nil_iff {x : Nat} (hH : 0 < H) : columnSlice f H x = [] ↔ f (x * H) = 0x00#8 := by
  obtain ⟨n, rfl⟩ := Nat.exists_eq_add_of_le' hH
  simp [columnSlice, List.range_succ_eq_map, List.takeWhile_cons]

/-- Columns without a zero byte give every byte. -/
theorem slicePrefixes_of_zeroFree (hnz : ∀ i < W * H, f i ≠ 0x00#8) :
    slicePrefixes f W H = (List.range (W * H)).map f := by
  induction W with
  | zero => simp [slicePrefixes]
  | succ W ih =>
    rw [Nat.succ_mul] at hnz ⊢
    have hlast : columnSlice f H W = (List.range H).map fun y => f (W * H + y) :=
      columnSlice_eq_map le_rfl (fun y hy => hnz _ (by omega)) (absurd · (Nat.lt_irrefl H))
    have hbefore : (List.range W).flatMap (columnSlice f H) = (List.range (W * H)).map f := ih fun i hi => hnz i (by omega)
    rw [slicePrefixes, List.range_succ, List.flatMap_append, hbefore, List.flatMap_singleton, hlast, List.range_add,
      List.map_append, List.map_map]
    rfl

/-- The columns before column `c`, that column, and those after it. -/
theorem range_eq_append_cons {c : Nat} (hc : c < W) :
    List.range W = List.range c ++ c :: List.range' (c + 1) (W - (c + 1)) := by
  rw [← List.range'_succ, show W - (c + 1) + 1 = W - c by omega, List.range_eq_range', List.range_eq_range']
  simpa [Nat.add_sub_cancel' hc.le] using (List.range'_append_1 (s := 0) (m := c) (n := W - c)).symm

/-- With the first zero byte at position `j`, the prefixes are the bytes before it and what later columns give (R166). -/
theorem slicePrefixes_of_first_zero {j : Nat} (hj : j < W * H) (hnz : ∀ i < j, f i ≠ 0x00#8) (hz : f j = 0x00#8) :
    slicePrefixes f W H = (List.range j).map f ++ laterPrefixes f W H j := by
  have hc : j / H < W := Nat.div_lt_of_lt_mul (Nat.mul_comm W H ▸ hj)
  have hr : j % H < H := Nat.mod_lt j (Nat.pos_of_mul_pos_left (Nat.zero_lt_of_lt hj))
  have hpos : j / H * H + j % H = j := Nat.div_add_mod' j H
  have hbefore : (List.range (j / H)).flatMap (columnSlice f H) = (List.range (j / H * H)).map f :=
    slicePrefixes_of_zeroFree fun i hi => hnz i (by omega)
  have hcolumn : columnSlice f H (j / H) = (List.range (j % H)).map fun y => f (j / H * H + y) :=
    columnSlice_eq_map hr.le (fun y hy => hnz _ (by omega)) fun _ => by rw [hpos, hz]
  have hupto : (List.range j).map f =
      (List.range (j / H * H)).map f ++ (List.range (j % H)).map fun y => f (j / H * H + y) := by
    conv_lhs => rw [← hpos, List.range_add, List.map_append, List.map_map]
    rfl
  rw [slicePrefixes, range_eq_append_cons hc, List.flatMap_append, List.flatMap_cons, hbefore, hcolumn, hupto,
    List.append_assoc]
  rfl

/-- Later columns give nothing exactly when each begins with a zero byte. -/
theorem laterPrefixes_eq_nil_iff {j : Nat} (hH : 0 < H) :
    laterPrefixes f W H j = [] ↔ ∀ x, j / H < x → x < W → f (x * H) = 0x00#8 := by
  have hmem : ∀ x, x ∈ List.range' (j / H + 1) (W - (j / H + 1)) ↔ j / H < x ∧ x < W := by
    intro x
    rw [List.mem_range'_1]
    omega
  simp only [laterPrefixes, List.flatMap_eq_nil_iff, hmem, columnSlice_eq_nil_iff hH, and_imp]

/-- A sequence that is zero from position `L` on, and not before, gives its first `L` bytes (R165). -/
theorem slicePrefixes_of_padded {L : Nat} (hL : L ≤ W * H) (hnz : ∀ i < L, f i ≠ 0x00#8) (hz : ∀ i, L ≤ i → f i = 0x00#8) :
    slicePrefixes f W H = (List.range L).map f := by
  rcases Nat.eq_or_lt_of_le hL with rfl | hlt
  · exact slicePrefixes_of_zeroFree hnz
  · have hH : 0 < H := Nat.pos_of_mul_pos_left (Nat.zero_lt_of_lt hlt)
    have hlater : laterPrefixes f W H L = [] :=
      (laterPrefixes_eq_nil_iff hH).2 fun x hx _ => hz _ ((Nat.div_lt_iff_lt_mul hH).1 hx).le
    rw [slicePrefixes_of_first_zero hlt hnz (hz L le_rfl), hlater, List.append_nil]

/-- An image whose pixel at scan position `i` holds the byte `f i` holds the prefixes of `f` (R162). -/
theorem imageBytes_eq_slicePrefixes {src : Store Word}
    (hpix : ∀ x < W, ∀ y < H, ∃ p, src.read (idx W x y) = some p ∧ unpack p = f (x * H + y)) :
    imageBytes src W H = slicePrefixes f W H := by
  refine List.flatMap_congr fun x hx => congrArg (List.takeWhile _) (List.map_congr_left fun y hy => ?_)
  obtain ⟨p, hp, hb⟩ := hpix x (List.mem_range.1 hx) y (List.mem_range.1 hy)
  show unpack ((src.read (idx W x y)).getD 0#32) = _
  rw [hp, Option.getD_some, hb]

end Sys2Proof.Machine
end

section
/-! EXTRACT after EMBED (R165, R166): the image EMBED writes holds, at scan position `i`, byte `i` of the message padded with
the empty marker. -/

namespace Sys2Proof.Machine

/-- Byte `i` of the message, or the empty marker from L on: what EMBED stores at scan position `i` (R142). -/
def State.paddedByte (s : State) (i : Nat) : Byte :=
  if i < s.msgLen.toNat then (s.mem.msgIn.read i).getD 0x00#8 else 0x00#8

theorem paddedByte_of_le {s : State} {i : Nat} (hi : s.msgLen.toNat ≤ i) : s.paddedByte i = 0x00#8 :=
  if_neg (Nat.not_lt.2 hi)

/-- The bytes that EXTRACT finds in the image that EMBED wrote (R166). -/
def State.storedBytes (s : State) : List Byte := slicePrefixes s.paddedByte s.width.toNat s.height.toNat

namespace State.EmbedReady

variable {s : State} (hr : s.EmbedReady)
include hr

theorem read_msgIn {i : Nat} (hi : i < s.msgLen.toNat) : s.mem.msgIn.read i = some (s.paddedByte i) := by
  obtain ⟨b, hb⟩ := hr.bytes i hi
  rw [paddedByte, if_pos hi, hb, Option.getD_some]

theorem read_msgIn_eq_zero_iff {i : Nat} (hi : i < s.msgLen.toNat) :
    s.mem.msgIn.read i = some 0x00#8 ↔ s.paddedByte i = 0x00#8 := by
  rw [hr.read_msgIn hi, Option.some_inj]

theorem embed_success :
    ∃ t, exec .embed s = .next t ∧ t.err = .none ∧ t.nMax = s.nMax ∧ t.width = s.width ∧ t.height = s.height := by
  obtain ⟨out, ht, -⟩ := embedWritesClosedForm s hr
  exact ⟨_, ht, rfl, rfl, rfl, rfl⟩

/-- The image that EMBED writes holds the padded message in scan order (R142). -/
theorem embed_pixels {t : State} (h : exec .embed s = .next t) {x y : Nat} (hx : x < s.width.toNat)
    (hy : y < s.height.toNat) :
    ∃ q, t.mem.imgOut.read (idx s.width.toNat x y) = some q ∧ unpack q = s.paddedByte (x * s.height.toNat + y) := by
  obtain ⟨out, hout, hpix, -⟩ := embedWritesClosedForm s hr
  obtain rfl := Host.Outcome.next.inj (hout.symm.trans h)
  obtain ⟨p, b, -, hb, hq⟩ := hpix x hx y hy
  refine ⟨pack p b, hq, ?_⟩
  rw [unpack_pack, paddedByte]
  split_ifs at hb ⊢
  · rw [hb, Option.getD_some]
  · exact hb

/-- With the first zero byte at `j`, what EXTRACT finds begins with the message up to `j` (R166). -/
theorem storedBytes_of_first_zero {j : Nat} (hj : j < s.msgLen.toNat) (hz : s.mem.msgIn.read j = some 0x00#8)
    (hnz : ∀ i < j, s.mem.msgIn.read i ≠ some 0x00#8) :
    s.storedBytes = (List.range j).map s.paddedByte ++ laterPrefixes s.paddedByte s.width.toNat s.height.toNat j :=
  slicePrefixes_of_first_zero (hj.trans_le hr.messageFits)
    (fun i hi => mt (hr.read_msgIn_eq_zero_iff (hi.trans hj)).2 (hnz i hi)) ((hr.read_msgIn_eq_zero_iff hj).1 hz)

/-- Of a message without a zero byte EXTRACT finds the whole (R165). -/
theorem storedBytes_of_zeroFree (hnz : ∀ i < s.msgLen.toNat, s.mem.msgIn.read i ≠ some 0x00#8) :
    s.storedBytes = (List.range s.msgLen.toNat).map s.paddedByte :=
  slicePrefixes_of_padded hr.messageFits (fun i hi => mt (hr.read_msgIn_eq_zero_iff hi).2 (hnz i hi))
    fun _ hi => paddedByte_of_le hi

/-- The columns after that of `j` give nothing exactly when each that holds a byte of the message begins with a zero byte
(R166). -/
theorem laterPrefixes_eq_nil_iff {j : Nat} (hj : j < s.pixelCount) :
    laterPrefixes s.paddedByte s.width.toNat s.height.toNat j = [] ↔
      ∀ x, j / s.height.toNat < x → x * s.height.toNat < s.msgLen.toNat →
        s.mem.msgIn.read (x * s.height.toNat) = some 0x00#8 := by
  rw [Machine.laterPrefixes_eq_nil_iff (Nat.pos_of_mul_pos_left (Nat.zero_lt_of_lt hj))]
  constructor
  · intro h x hx hxL
    have hxW : x < s.width.toNat := Nat.lt_of_mul_lt_mul_right (hxL.trans_le hr.messageFits)
    exact (hr.read_msgIn_eq_zero_iff hxL).2 (h x hx hxW)
  · intro h x hx _
    rcases Nat.lt_or_ge (x * s.height.toNat) s.msgLen.toNat with hxL | hxL
    · exact (hr.read_msgIn_eq_zero_iff hxL).1 (h x hx hxL)
    · exact paddedByte_of_le hxL

/-- EXTRACT of the image that EMBED wrote gives the zero-free prefixes of the padded message's columns (R162, R166). -/
theorem extract_embedded {t t' : State} {sBit : Bool} (h : exec .embed s = .next t) (hn : t'.nMax = s.nMax)
    (hw : t'.width = s.width) (hh : t'.height = s.height)
    (himg : ∀ i < s.pixelCount, (t'.mem.source sBit).read i = t.mem.imgOut.read i) :
    ∃ u, exec (.extract sBit) t' = .next u ∧ u.err = .none ∧ u.resultLen.toNat = s.storedBytes.length ∧
      ∀ k (hk : k < s.storedBytes.length), u.mem.msgOut.read k = some s.storedBytes[k] := by
  have hpix : ∀ x < t'.width.toNat, ∀ y < t'.height.toNat, ∃ q,
      (t'.mem.source sBit).read (idx t'.width.toNat x y) = some q ∧
      unpack q = s.paddedByte (x * t'.height.toNat + y) := by
    rw [hw, hh]
    intro x hx y hy
    rw [himg _ (idx_lt_of_mem_scan (p := (x, y)) (mem_scan.2 ⟨hx, hy⟩))]
    exact hr.embed_pixels h hx hy
  have hfit : t'.pixelCount ≤ t'.nMax.n := by
    rw [State.pixelCount, hw, hh, hn]
    exact hr.imageFits
  have hready : t'.ExtractReady sBit := ⟨hfit, fun x hx y hy _ => (hpix x hx y hy).imp fun _ hq => hq.1⟩
  have hbytes : t'.hiddenBytes sBit = s.storedBytes := by
    rw [hiddenBytes, imageBytes_eq_slicePrefixes hpix, hw, hh]
    rfl
  obtain ⟨out, hu, -, hread, -⟩ := extractWritesClosedForm sBit t' hready
  rw [← hbytes]
  exact ⟨_, hu, rfl, hiddenBytes_length_toNat sBit t', hread⟩

end State.EmbedReady

/-- Settles O49: the bytes before the padding are the message, and the padding is zero. -/
theorem roundTripOfZeroFreeMessage : Obligations.RoundTripOfZeroFreeMessage := by
  intro s hr hnz
  have hstored := hr.storedBytes_of_zeroFree hnz
  have hlen : s.storedBytes.length = s.msgLen.toNat := by rw [hstored, List.length_map, List.length_range]
  obtain ⟨t, ht, hte, -⟩ := hr.embed_success
  refine ⟨t, ht, hte, fun sBit t' hn hw hh himg => ?_⟩
  obtain ⟨u, hu, he, hres, hread⟩ := hr.extract_embedded ht hn hw hh himg
  refine ⟨u, hu, he, BitVec.eq_of_toNat_eq (hres.trans hlen), fun j hj => ?_⟩
  rw [hread j (by rwa [hlen]), hr.read_msgIn hj]
  simp only [hstored, List.getElem_map, List.getElem_range]

/-- Settles O50: up to the first zero byte the output is the message, and what follows is `laterPrefixes`. -/
theorem zeroByteEndsItsColumnOnly : Obligations.ZeroByteEndsItsColumnOnly := by
  intro s hr H L slicePrefix bytes
  obtain ⟨t, ht, -, hn, hw, hh⟩ := hr.embed_success
  obtain ⟨u, hu, he, hres, hread⟩ := hr.extract_embedded (sBit := true) ht hn hw hh fun _ _ => rfl
  refine ⟨t, u, ht, hu, he, hres, hread, fun j hj hz hnz => ?_⟩
  have hstored := hr.storedBytes_of_first_zero hj hz hnz
  have hlater := hr.laterPrefixes_eq_nil_iff (hj.trans_le hr.messageFits)
  have hlen : u.resultLen.toNat = j + (laterPrefixes s.paddedByte s.width.toNat s.height.toNat j).length := by
    rw [hres, hstored, List.length_append, List.length_map, List.length_range]
  refine ⟨by omega, fun i hi => ?_, fun hzeros => ?_, fun x hx hxL hne => ?_⟩
  · rw [hread i (by omega), hr.read_msgIn (hi.trans hj)]
    simp only [hstored, List.getElem_append_left, List.length_map, List.length_range, hi, List.getElem_map,
      List.getElem_range]
  · rw [hlen, hlater.2 hzeros, List.length_nil, Nat.add_zero]
  · have hpos := List.length_pos_iff.2 (mt hlater.1 fun hzeros => hne (hzeros x hx hxL))
    omega

end Sys2Proof.Machine
end

section
/-! Reads (R184, R192): where a read answers by the table, and where the BUSY window leaves its value free. -/

namespace Sys2Proof.Machine

/-- Outside R184's locations a read follows R192, in the BUSY window too. -/
theorem readLoc_of_not_free {l : Loc} {s : State} (hout : l.isOutput = false) (hst : l ≠ .reg .status) :
    readLoc l s = readDefined l s := by
  cases hop : s.op with
  | idle => exact readLoc_of_idle hop
  | busy => simp [readLoc, hop, hout, hst]

/-- In the BUSY window an output reads as a free word (R184, U1). -/
theorem readLoc_output_of_busy {l : Loc} {s : State} (hop : s.op = .busy) (hout : l.isOutput = true) :
    readLoc l s = answerDrawn (Config.drawWord s.draws) s := by
  simp only [readLoc, hop, hout, if_true]

/-- In the BUSY window STATUS reads with a free CAP_OK (R184, U2). -/
theorem readLoc_status_of_busy {s : State} (hop : s.op = .busy) :
    readLoc (.reg .status) s = answerDrawn (s.statusWord (Config.drawBit s.draws)) s := by
  simp [readLoc, hop, Loc.isOutput]

/-- A read of a register by R192. -/
theorem hostAccess_readReg_defined {r : Reg} {s : State} {v : Word} (hl : readLoc (.reg r) s = readDefined (.reg r) s)
    (hv : readReg r s = v) : hostAccess (.readWord r.offset) s = .next { s with answer := .data v } := by
  rw [hostAccess_readReg, hl, readDefined, hv]

/-- A read of an entry by R192: its word, or a fault where it is unwritten (U3). -/
theorem hostAccess_readEntry_defined (b : Buf) {i : Nat} {s : State} (hi : i < s.nMax.n)
    (hl : readLoc (.entry b i) s = readDefined (.entry b i) s) :
    (∀ v, s.mem.entryWord b i = some v →
      hostAccess (.readWord (b.base + BitVec.ofNat 32 (4 * i))) s = .next { s with answer := .data v }) ∧
    (s.mem.entryWord b i = none →
      hostAccess (.readWord (b.base + BitVec.ofNat 32 (4 * i))) s = .fault (.hostReadUnwritten b i)) := by
  rw [hostAccess_readEntry b hi, hl, readDefined]
  exact ⟨fun v hv => by rw [hv], fun hv => by rw [hv]⟩

/-- A message byte reads with 24 zeros above it (R64). -/
theorem map_setWidth_word {o : Option Byte} {v : Byte} (hv : o = some v) :
    (o.map fun b => b.setWidth 32) = some (0#24 ++ v) := by
  rw [hv, Option.map_some, BitVec.setWidth_eq_append (by decide)]
  rfl

theorem entryWord_msgIn_of_read {m : Memory} {i : Nat} {v : Byte} (hv : m.msgIn.read i = some v) :
    m.entryWord .msgIn i = some (0#24 ++ v) := map_setWidth_word hv

theorem entryWord_msgOut_of_read {m : Memory} {i : Nat} {v : Byte} (hv : m.msgOut.read i = some v) :
    m.entryWord .msgOut i = some (0#24 ++ v) := map_setWidth_word hv

/-- CAPACITY as the product it reads (R36). -/
theorem capacityWord_eq_ofNat (s : State) : s.capacityWord = BitVec.ofNat 32 s.pixelCount := by
  rw [← capacityWord_toNat, BitVec.ofNat_toNat, BitVec.setWidth_eq]

/-- STATUS of an idle block has BUSY = 0 (R28). -/
theorem readReg_status_of_idle {s : State} (hop : s.op = .idle) :
    readReg .status s =
      0#20 ++ s.err.code ++ 0#4 ++ BitVec.ofBool s.bwe ++ BitVec.ofBool s.capOk ++ BitVec.ofBool s.done ++ 0#1 := by
  simp only [readReg, State.statusWord, State.busy, hop]
  rfl

/-- STATUS in the BUSY window: DONE and ERR are 0 by the invariant (R184). -/
theorem statusWord_of_busy {s : State} (hs : s.Inv) (hop : s.op = .busy) (c : Bool) :
    s.statusWord c = 0#28 ++ BitVec.ofBool s.bwe ++ BitVec.ofBool c ++ 0#1 ++ 1#1 := by
  have hdone : s.done = false := Bool.eq_false_iff.2 fun hd => by simp [hs.doneIdle hd] at hop
  simp only [State.statusWord, State.busy, hs.busyErr hop, hdone, hop]
  rfl

/-- Settles O11: R184's locations read by R192 while op = IDLE, the others always. -/
theorem readsReturnTheirValues : Obligations.ReadsReturnTheirValues := by
  intro s reads at' faults
  have hreg : ∀ r v, (Loc.reg r).isOutput = false → r ≠ .status → readReg r s = v → reads r.offset v :=
    fun r v hout hst => hostAccess_readReg_defined (readLoc_of_not_free hout (mt Loc.reg.inj hst))
  refine ⟨⟨hreg .id _ rfl nofun rfl, hreg .param _ rfl nofun rfl, hreg .ctrl _ rfl nofun rfl, hreg .cmd _ rfl nofun rfl,
      hreg .width _ rfl nofun (BitVec.setWidth_eq_append (by decide)),
      hreg .height _ rfl nofun (BitVec.setWidth_eq_append (by decide)), hreg .msgLen _ rfl nofun rfl,
      hreg .capacity _ rfl nofun (capacityWord_eq_ofNat s), hreg .pixA _ rfl nofun rfl,
      hreg .byteA _ rfl nofun (BitVec.setWidth_eq_append (by decide))⟩, fun i hi => ?_, fun hop => ?_⟩
  · obtain ⟨himg, himgNone⟩ := hostAccess_readEntry_defined .imgIn hi (readLoc_of_not_free rfl nofun)
    obtain ⟨hmsg, hmsgNone⟩ := hostAccess_readEntry_defined .msgIn hi (readLoc_of_not_free rfl nofun)
    exact ⟨himg, himgNone, fun v hv => hmsg _ (entryWord_msgIn_of_read hv),
      fun hv => hmsgNone (Option.map_eq_none_iff.2 hv)⟩
  · have hreg : ∀ r v, readReg r s = v → reads r.offset v := fun r v => hostAccess_readReg_defined (readLoc_of_idle hop)
    refine ⟨hreg .status _ (readReg_status_of_idle hop), hreg .resultLen _ rfl, hreg .pixR _ rfl, hreg .byteR _ rfl,
      fun i hi => ?_⟩
    obtain ⟨himg, himgNone⟩ := hostAccess_readEntry_defined .imgOut hi (readLoc_of_idle hop)
    obtain ⟨hmsg, hmsgNone⟩ := hostAccess_readEntry_defined .msgOut hi (readLoc_of_idle hop)
    exact ⟨himg, himgNone, fun v hv => hmsg _ (entryWord_msgOut_of_read hv),
      fun hv => hmsgNone (Option.map_eq_none_iff.2 hv)⟩

/-- Settles O12: the outputs draw a word, and STATUS draws CAP_OK only. -/
theorem outputsReadFreeWhileBusy : Obligations.OutputsReadFreeWhileBusy := by
  intro s hs hop free
  have hreg : ∀ r, (Loc.reg r).isOutput = true → free r.offset := fun r hout =>
    (hostAccess_readReg r s).trans (readLoc_output_of_busy hop hout)
  have hentry : ∀ b, ∀ i < s.nMax.n, (Loc.entry b i).isOutput = true → free (b.base + BitVec.ofNat 32 (4 * i)) :=
    fun b i hi hout => (hostAccess_readEntry b hi).trans (readLoc_output_of_busy hop hout)
  refine ⟨hreg .resultLen rfl, hreg .pixR rfl, hreg .byteR rfl,
    fun i hi => ⟨hentry .imgOut i hi rfl, hentry .msgOut i hi rfl⟩, ?_⟩
  rw [← statusWord_of_busy hs hop]
  exact (hostAccess_readReg .status s).trans (readLoc_status_of_busy hop)

end Sys2Proof.Machine
end

section
/-! Writes (R181 to R183, R189): an idle block takes the write of a command's input, a busy one drops it; CTRL, STATUS and
SRESET act in both. -/

namespace Sys2Proof.Machine

theorem writeInput_of_idle {s : State} (hop : s.op = .idle) (written : State) : writeInput s written = .next written := by
  simp only [writeInput, hop]

theorem writeInput_of_busy {s : State} (hop : s.op = .busy) (written : State) :
    writeInput s written = .next { s with bwe := true } := by
  simp only [writeInput, hop]

/-- While op = IDLE a word other than SRESET is accepted (R181). -/
theorem offerCommand_of_idle {w : Word} {s : State} (hop : s.op = .idle) (hw : w ≠ 0x0000000F#32) :
    offerCommand w s = .next (accept w s) := by
  simp only [offerCommand, if_neg hw, hop]

/-- While op = BUSY a word other than SRESET is dropped (R182). -/
theorem offerCommand_of_busy {w : Word} {s : State} (hop : s.op = .busy) (hw : w ≠ 0x0000000F#32) :
    offerCommand w s = .next { s with bwe := true } := by
  simp only [offerCommand, if_neg hw, hop]

/-- The STATUS write by cases of its bits 1 and 3 (R27). -/
theorem clearStatus_eq (d : Word) (s : State) :
    clearStatus d s = { s with done := if d[1] then false else s.done, bwe := if d[3] then false else s.bwe } := by
  have hclear : ∀ b c : Bool, (b && !c) = if c then false else b := by decide
  simp only [clearStatus, hclear]

/-- The STATUS write, in either state of op (R183, R189). -/
theorem hostAccess_writeStatus (d : Word) (s : State) :
    hostAccess (.writeWord 0x10#32 d) s = .next { s with
      done := if d[1] then false else s.done, bwe := if d[3] then false else s.bwe, answer := .okay } :=
  (hostAccess_writeReg .status d s).trans (congrArg _ (clearStatus_eq d _))

/-- Settles O14. -/
theorem idleWritesTakeEffect : Obligations.IdleWritesTakeEffect := by
  intro s d hop writes at' refuses
  have htaken : ∀ w : State, writeInput { s with answer := .okay } w = .next w := writeInput_of_idle hop
  refine ⟨hostAccess_writeReg .ctrl d s,
    fun hd => (hostAccess_writeReg .cmd d s).trans (offerCommand_of_idle (s := { s with answer := .okay }) hop hd),
    fun hd => by rw [hd]; exact hostAccess_sreset s, hostAccess_writeStatus d s,
    (hostAccess_writeReg .width d s).trans (htaken _), (hostAccess_writeReg .height d s).trans (htaken _),
    (hostAccess_writeReg .msgLen d s).trans (htaken _), (hostAccess_writeReg .pixA d s).trans (htaken _),
    (hostAccess_writeReg .byteA d s).trans (htaken _),
    hostAccess_writeReg .id d s, hostAccess_writeReg .param d s, hostAccess_writeReg .capacity d s,
    hostAccess_writeReg .resultLen d s, hostAccess_writeReg .pixR d s, hostAccess_writeReg .byteR d s,
    fun W H => capacityWord_toNat { s with width := W, height := H }, fun i hi => ?_⟩
  exact ⟨(hostAccess_writeEntry .imgIn d hi).trans (htaken _), (hostAccess_writeEntry .msgIn d hi).trans (htaken _),
    hostAccess_writeEntry .imgOut d hi, hostAccess_writeEntry .msgOut d hi, Store.read_write_same _ _ _,
    Store.read_write_same _ _ _⟩

/-- Settles O16: which accesses are bus errors is known without op. -/
theorem busyWritesDroppedOrTaken : Obligations.BusyWritesDroppedOrTaken := by
  intro s d hop taken dropped refuses at'
  have hdropped : ∀ w : State, writeInput { s with answer := .okay } w = .next { s with bwe := true, answer := .okay } :=
    writeInput_of_busy hop
  refine ⟨hostAccess_writeReg .ctrl d s, hostAccess_writeStatus d s,
    fun hd => (hostAccess_writeReg .cmd d s).trans (offerCommand_of_busy (s := { s with answer := .okay }) hop hd),
    fun hd => by rw [hd]; exact hostAccess_sreset s,
    (hostAccess_writeReg .width d s).trans (hdropped _), (hostAccess_writeReg .height d s).trans (hdropped _),
    (hostAccess_writeReg .msgLen d s).trans (hdropped _), (hostAccess_writeReg .pixA d s).trans (hdropped _),
    (hostAccess_writeReg .byteA d s).trans (hdropped _),
    hostAccess_writeReg .id d s, hostAccess_writeReg .param d s, hostAccess_writeReg .capacity d s,
    hostAccess_writeReg .resultLen d s, hostAccess_writeReg .pixR d s, hostAccess_writeReg .byteR d s,
    fun a e => ?_, fun i hi => ?_⟩
  · rw [hostAccess_busError, hostAccess_busError]
  · exact ⟨(hostAccess_writeEntry .imgIn d hi).trans (hdropped _), (hostAccess_writeEntry .msgIn d hi).trans (hdropped _),
      hostAccess_writeEntry .imgOut d hi, hostAccess_writeEntry .msgOut d hi⟩

end Sys2Proof.Machine
end

section
/-! The engine's turn (R185, R186): while op = BUSY it is the completion of the word in PEND, and it never finds SRESET there. -/

namespace Sys2Proof.Machine

/-- An idle block's engine has no step (R185). -/
theorem engineTurn_of_idle {s : State} (hop : s.op = .idle) : engineTurn s = .next s := by
  simp only [engineTurn, hop]

/-- The completion of a legal word is its command (R186). -/
theorem completePending_of_command {i : Instr} {s : State} (hd : decode s.pend = .ok i) (hi : i ≠ .sreset) :
    completePending s = exec i s := by
  simp only [completePending, hd, if_neg hi]

/-- An illegal word completes with ILLEGAL_CMD (R213). -/
theorem completePending_of_illegal {r : Illegal} {s : State} (hd : decode s.pend = .error r) :
    completePending s = .next (complete .illegalCmd s) := by
  simp only [completePending, hd]

/-- R186 has no case for SRESET (log entry 8). -/
theorem completePending_of_sreset {s : State} (hp : s.pend = 0x0000000F#32) :
    completePending s = .fault .sresetPending := by
  have hd : decode s.pend = .ok .sreset := by rw [hp]; exact decode_encode .sreset
  simp only [completePending, hd, if_true]

/-- With nothing scheduled a BUSY block takes the engine's turn (log entry 2). -/
theorem step_of_busy {s : State} (hop : s.op = .busy) (hev : s.events = []) : step s = completePending s := by
  simp only [step, hev, defaultTurn, hop, engineTurn_of_busy hop]

/-- Settles O19: the scheduled and the default turn of a BUSY block are the completion of PEND. -/
theorem engineTurnRunsPendingCommand : Obligations.EngineTurnRunsPendingCommand := by
  intro s rest
  refine ⟨engineTurn_of_idle (s := { s with events := rest }), fun hop => ?_⟩
  have hsched : step { s with events := .engine :: rest } = completePending { s with events := rest } :=
    engineTurn_of_busy (s := { s with events := rest }) hop
  have hdefault : step { s with events := [] } = completePending { s with events := [] } := step_of_busy hop rfl
  rw [hsched, hdefault]
  exact ⟨fun i hd hi => ⟨completePending_of_command hd hi, completePending_of_command hd hi⟩,
    fun r hd => ⟨completePending_of_illegal hd, completePending_of_illegal hd⟩, fun hp => completePending_of_sreset hp⟩

/-- The engine's turn faults on a pending SRESET, or by a read of an unwritten entry (U4). -/
theorem engineTurn_fault {s : State} {f : Fault} (h : engineTurn s = .fault f) :
    (s.op = .busy ∧ s.pend = 0x0000000F#32) ∨ ∃ b k, f = .engineReadUnwritten b k := by
  cases hop : s.op with
  | idle => simp [engineTurn_of_idle hop] at h
  | busy =>
    rw [engineTurn_of_busy hop] at h
    cases hd : decode s.pend with
    | error r => simp [completePending_of_illegal hd] at h
    | ok i =>
      by_cases hi : i = .sreset
      · subst hi
        exact .inl ⟨rfl, decode_sreset hd⟩
      · rw [completePending_of_command hd hi] at h
        exact .inr (exec_fault h)

/-- No host access stops on a pending SRESET. -/
theorem hostAccess_ne_sresetPending (a : Access) (s : State) : hostAccess a s ≠ .fault .sresetPending := by
  intro h
  rcases hostAccess_fault h with ⟨e, hf⟩ | ⟨b, i, hf⟩ <;> cases hf

/-- Settles O56: only the engine's turn could stop so, and the invariant keeps SRESET out of PEND in the window. -/
theorem sresetNeverPending : Obligations.SresetNeverPending := by
  intro s hs h
  rcases step_cases h with ⟨a, ha⟩ | hl | he | hr
  · exact hostAccess_ne_sresetPending a _ ha
  · rcases hostLine_fault hl with ⟨a, u, ha⟩ | ⟨e, hf⟩
    · exact hostAccess_ne_sresetPending a u ha
    · cases hf
  · rcases engineTurn_fault he with ⟨hop, hp⟩ | ⟨b, k, hf⟩
    · exact hs.busyPend hop hp
    · cases hf
  · cases hr

/-- Settles O22: all that it names is outside what a completion may change, or is set by the completion record. -/
theorem everyCompletionEndsTheWindow : Obligations.EveryCompletionEndsTheWindow := by
  intro i s t hi h
  rw [exec_next_frame hi h]
  exact ⟨rfl, rfl, rfl, rfl, rfl, rfl, ⟨rfl, rfl, rfl, rfl, rfl, rfl, rfl, rfl⟩, ⟨rfl, rfl, rfl, rfl, rfl, rfl⟩⟩

/-- NOP is the completion record alone (R188). -/
theorem exec_nop (s : State) : exec .nop s = .next (complete .none s) := rfl

/-- Settles O32. -/
theorem nopOnlyCompletes : Obligations.NopOnlyCompletes := ⟨decode_encode .nop, exec_nop⟩

end Sys2Proof.Machine
end

section
/-! From the CMD write to the completion (R181, R185, R187): acceptance, a command placed before the engine, and the host
accesses of the BUSY window. -/

namespace Sys2Proof.Machine

/-- Settles O18: the step is the CMD write, and acceptance clears DONE, so irq is 0. -/
theorem acceptanceLatchesTheWord : Obligations.AcceptanceLatchesTheWord := by
  intro s w rest hop
  refine ⟨fun hw => ?_, fun hw => ⟨_, ?_, rfl, rfl⟩⟩
  · subst hw
    exact hostAccess_sreset { s with events := rest }
  · exact (hostAccess_writeReg .cmd w { s with events := rest }).trans
      (offerCommand_of_idle (s := { s with events := rest, answer := .okay }) hop hw)

/-- A 32-bit table word is placed as it is (log entry 12). -/
theorem withFetchWord_toNat (s : State) (w : Word) : s.withFetchWord 32 w.toNat = placeCommand w s := by
  rw [State.withFetchWord, Nat.mod_eq_of_lt w.isLt, BitVec.ofNat_toNat, BitVec.setWidth_eq]

/-- SRESET, placed, is the CMD write of the next step (R190). -/
theorem step_placeCommand_sreset (s : State) :
    step (placeCommand 0x0000000F#32 s) = exec .sreset { s with answer := .okay } :=
  hostAccess_sreset s

/-- Any other word, placed, is accepted, and the next step completes it (R181, R186). -/
theorem step_placeCommand {w : Word} (s : State) (hw : w ≠ 0x0000000F#32) :
    step (placeCommand w s) = completePending (accept w s) := by
  rw [placeCommand, if_neg hw]
  exact engineTurn_of_busy (s := accept w s) rfl

/-- Settles O20: an encoding other than SRESET's decodes back to its command. -/
theorem placedWordRunsNext : Obligations.PlacedWordRunsNext := by
  intro s i
  rw [withFetchWord_toNat]
  by_cases hi : i = .sreset
  · subst hi
    exact step_placeCommand_sreset s
  · have hd : decode (accept (encode i) s).pend = .ok i := decode_encode i
    have hw : encode i ≠ 0x0000000F#32 := fun he => by
      rw [accept_pend, he] at hd
      exact hi (Except.ok.inj (hd.symm.trans (decode_encode .sreset)))
    rw [step_placeCommand s hw, completePending_of_command hd hi, if_neg hi]

/-- A run that answers after at least one step has taken that step. -/
theorem run_succ_next {M : Host.Core} {s t : M.State} {k : Nat} (h : M.run (k + 1) s = .next t) :
    ∃ u, M.step s = .next u ∧ M.run k u = .next t := by
  cases hs : M.step s with
  | next u => exact ⟨u, rfl, by rwa [run_succ_of_step hs] at h⟩
  | fault r => simp [Host.Core.run, hs] at h
  | refused r => simp [Host.Core.run, hs] at h

/-- Any number of host accesses other than SRESET, scheduled in the BUSY window, change IRQ_EN, DONE, BWE, the draws and the
answer at most (R78, R185). -/
theorem run_accesses_busy {as : List Access} {es : List Event} {s t : State} (hop : s.op = .busy)
    (has : ∀ a ∈ as, a ≠ .writeWord 0x0C#32 0x0000000F#32)
    (h : Host.Core.run Sys2Proof.core as.length { s with events := as.map .access ++ es } = .next t) :
    t = { s with
      irqEn := t.irqEn, done := t.done, bwe := t.bwe, draws := t.draws, answer := t.answer, events := es } := by
  induction as generalizing s with
  | nil =>
    obtain rfl := Host.Outcome.next.inj h
    rfl
  | cons a as ih =>
    obtain ⟨u, hstep, hrun⟩ := run_succ_next h
    have hu : u = { s with
        irqEn := u.irqEn, done := u.done, bwe := u.bwe, draws := u.draws, answer := u.answer,
        events := as.map .access ++ es } :=
      hostAccess_next_busy (s := { s with events := as.map .access ++ es }) hop (has a List.mem_cons_self) hstep
    rw [hu] at hrun
    exact ih (s := { s with
      irqEn := u.irqEn, done := u.done, bwe := u.bwe, draws := u.draws, answer := u.answer }) hop
      (fun b hb => has b (List.mem_cons_of_mem _ hb)) hrun

/-- Settles O24: after the accesses op is still BUSY and the engine's turn is next. -/
theorem completionAfterAnyHostAccesses : Obligations.CompletionAfterAnyHostAccesses := by
  intro as rest s t hop has h
  rw [run_accesses_busy hop has h]
  exact ⟨hop, rfl, rfl, ⟨rfl, rfl, rfl, rfl, rfl, rfl, rfl, rfl⟩, ⟨rfl, rfl, rfl, rfl, rfl⟩, engineTurn_of_busy hop⟩

end Sys2Proof.Machine
end

section
/-! SRESET (R190, R191): every register at its reset value, and the buffers as the abort leaves them. -/

namespace Sys2Proof.Machine

/-- SRESET from an idle block keeps the buffers (R190). -/
theorem exec_sreset_of_idle {s : State} (hop : s.op = .idle) : exec .sreset s = .next (resetRegisters s) := by
  simp [exec, execSreset, hop]

/-- SRESET from a BUSY block aborts the command in progress (R191). -/
theorem exec_sreset_of_busy {s : State} (hop : s.op = .busy) :
    exec .sreset s = .next { resetRegisters s with mem := abortedMem s } := by
  simp [exec, execSreset, hop, resetRegisters]

/-- The abort of an EMBED whose image fits unwrites IMG_OUT below W × H (R191). -/
theorem abortedMem_of_embed {s : State} (hp : s.pend = 0x2#32) (hf : s.pixelCount ≤ s.nMax.n) :
    abortedMem s = { s.mem with imgOut := s.mem.imgOut.clearBelow s.pixelCount } := by
  have hd : decode s.pend = .ok .embed := by rw [hp]; exact decode_encode .embed
  simp [abortedMem, State.imageFits, hf, hd]

/-- The abort of an EXTRACT whose image fits unwrites MSG_OUT below W × H (R191). -/
theorem abortedMem_of_extract {s : State} (hp : s.pend = 0x3#32 ∨ s.pend = 0x13#32) (hf : s.pixelCount ≤ s.nMax.n) :
    abortedMem s = { s.mem with msgOut := s.mem.msgOut.clearBelow s.pixelCount } := by
  have hd : ∃ sBit, decode s.pend = .ok (.extract sBit) := by
    rcases hp with hp | hp <;> rw [hp]
    · exact ⟨false, decode_encode (.extract false)⟩
    · exact ⟨true, decode_encode (.extract true)⟩
  obtain ⟨sBit, hd⟩ := hd
  simp [abortedMem, State.imageFits, hf, hd]

/-- The abort of any other command, or of one whose image does not fit, keeps the buffers (R191). -/
theorem abortedMem_eq_mem {s : State} (h : s.nMax.n < s.pixelCount ∨ s.pend ∉ [0x2#32, 0x3#32, 0x13#32]) :
    abortedMem s = s.mem := by
  rcases h with hn | hp
  · simp [abortedMem, State.imageFits, Nat.not_le.2 hn]
  · rcases abortedMem_cases s with h | ⟨he, -⟩ | ⟨he, -⟩
    · exact h
    · simp [he] at hp
    · rcases he with he | he <;> simp [he] at hp

/-- No abort touches the host's buffers (R191). -/
theorem abortedMem_inputs (s : State) : (abortedMem s).imgIn = s.mem.imgIn ∧ (abortedMem s).msgIn = s.mem.msgIn := by
  rcases abortedMem_cases s with h | ⟨-, h⟩ | ⟨-, h⟩ <;> rw [h] <;> exact ⟨rfl, rfl⟩

/-- Clearing below `n` unwrites what is below and keeps the rest. -/
theorem Store.clearBelow_spec {α : Type} (st : Store α) (n : Nat) :
    (∀ i < n, (st.clearBelow n).read i = none) ∧ ∀ i, n ≤ i → (st.clearBelow n).read i = st.read i :=
  ⟨fun i hi => by rw [Store.read_clearBelow, if_pos hi],
    fun i hi => by rw [Store.read_clearBelow, if_neg (Nat.not_lt.2 hi)]⟩

/-- Settles O51: SRESET by the state of op, and the abort by the word in PEND. -/
theorem sresetResetsAndAborts : Obligations.SresetResetsAndAborts := by
  refine ⟨decode_encode .sreset, fun s => ⟨hostAccess_sreset s, ?_⟩⟩
  cases hop : s.op with
  | idle =>
    exact ⟨_, exec_sreset_of_idle hop, rfl, readReg_byteR_of_marker rfl, rfl, rfl, fun _ => rfl, nofun⟩
  | busy =>
    obtain ⟨himg, hmsg⟩ := abortedMem_inputs s
    refine ⟨_, exec_sreset_of_busy hop, rfl, readReg_byteR_of_marker rfl, rfl, rfl, nofun, fun _ => ⟨rfl, himg, hmsg,
      fun ⟨hp, hf⟩ => ?_, fun ⟨hp, hf⟩ => ?_, abortedMem_eq_mem⟩⟩
    · rw [abortedMem_of_embed hp hf]
      exact ⟨rfl, s.mem.imgOut.clearBelow_spec s.pixelCount⟩
    · rw [abortedMem_of_extract hp hf]
      exact ⟨rfl, s.mem.msgOut.clearBelow_spec s.pixelCount⟩

end Sys2Proof.Machine
end

section
/-! Error completions (R210 to R216): BAD_DIM from EMBED and EXTRACT, CAPACITY from EMBED, ILLEGAL_CMD from a word that decodes
to no command; none of them changes more than STATUS. -/

namespace Sys2Proof.Machine

/-- Every error completion of a command: EMBED's two and EXTRACT's one (R211, R212, R214). -/
theorem exec_next_error {i : Instr} {s t : State} (h : exec i s = .next t) (he : t.err ≠ .none) :
    (i = .embed ∧ s.nMax.n < s.pixelCount ∧ t = complete .badDim { s with capOk := cap s.len s.pixelCount }) ∨
    (i = .embed ∧ s.pixelCount ≤ s.nMax.n ∧ s.pixelCount < s.len ∧ t = complete .capacity { s with capOk := false }) ∨
    ∃ sBit, i = .extract sBit ∧ s.nMax.n < s.pixelCount ∧ t = complete .badDim s := by
  cases i with
  | nop => obtain rfl := Host.Outcome.next.inj h; exact absurd rfl he
  | capchk => obtain rfl := Host.Outcome.next.inj h; exact absurd rfl he
  | pack => obtain rfl := Host.Outcome.next.inj h; exact absurd rfl he
  | unpack => obtain rfl := Host.Outcome.next.inj h; exact absurd rfl he
  | sreset => rw [execSreset_next h] at he; exact absurd rfl he
  | embed =>
    rcases execEmbed_next h with ⟨hf, ht⟩ | ⟨hf, hc, ht⟩ | ⟨-, -, m, k, -, rfl⟩
    · exact .inl ⟨rfl, hf, ht⟩
    · exact .inr (.inl ⟨rfl, hf, hc, ht⟩)
    · exact absurd rfl he
  | extract sBit =>
    rcases execExtract_next h with ⟨hf, ht⟩ | ⟨-, rfl⟩
    · exact .inr (.inr ⟨sBit, rfl, hf, ht⟩)
    · exact absurd rfl he

/-- Which command reports BAD_DIM, and when (R211). -/
theorem exec_badDim_iff {i : Instr} {s t : State} (h : exec i s = .next t) :
    t.err = .badDim ↔ (i = .embed ∨ ∃ sBit, i = .extract sBit) ∧ s.nMax.n < s.pixelCount := by
  constructor
  · intro he
    rcases exec_next_error h (by simp [he]) with ⟨hi, hf, -⟩ | ⟨-, -, -, rfl⟩ | ⟨sBit, hi, hf, -⟩
    · exact ⟨.inl hi, hf⟩
    · cases he
    · exact ⟨.inr ⟨sBit, hi⟩, hf⟩
  · rintro ⟨rfl | ⟨sBit, rfl⟩, hf⟩
    · obtain rfl := Host.Outcome.next.inj (h.symm.trans (execEmbed_of_badDim hf))
      rfl
    · obtain rfl := Host.Outcome.next.inj (h.symm.trans (execExtract_of_badDim hf))
      rfl

/-- Which command reports CAPACITY, and when (R212, R214). -/
theorem exec_capacity_iff {i : Instr} {s t : State} (h : exec i s = .next t) :
    t.err = .capacity ↔ i = .embed ∧ s.pixelCount ≤ s.nMax.n ∧ s.pixelCount < s.len := by
  constructor
  · intro he
    rcases exec_next_error h (by simp [he]) with ⟨-, -, rfl⟩ | ⟨hi, hf, hc, -⟩ | ⟨sBit, -, -, rfl⟩
    · cases he
    · exact ⟨hi, hf, hc⟩
    · cases he
  · rintro ⟨rfl, hf, hc⟩
    obtain rfl := Host.Outcome.next.inj (h.symm.trans (execEmbed_of_capacity hf hc))
    rfl

/-- No command reports ILLEGAL_CMD, which is an illegal word's own code (R213). -/
theorem exec_ne_illegalCmd {i : Instr} {s t : State} (h : exec i s = .next t) : t.err ≠ .illegalCmd := by
  intro he
  rcases exec_next_error h (by simp [he]) with ⟨-, -, rfl⟩ | ⟨-, -, -, rfl⟩ | ⟨sBit, -, -, rfl⟩ <;> cases he

/-- Settles O28: each error completion is the completion record, EMBED's with CAP_OK set as well. -/
theorem failedCommandChangesOnlyStatus : Obligations.FailedCommandChangesOnlyStatus := by
  refine ⟨fun i s t _ h he => ?_, fun s r hd => completePending_of_illegal hd⟩
  rcases exec_next_error h he with ⟨rfl, -, rfl⟩ | ⟨rfl, -, -, rfl⟩ | ⟨sBit, rfl, -, rfl⟩
  · exact ⟨rfl, fun hne => absurd rfl hne⟩
  · exact ⟨rfl, fun hne => absurd rfl hne⟩
  · exact ⟨rfl, fun _ => rfl⟩

/-- Settles O29, code by code. -/
theorem errorCodesByCommand : Obligations.ErrorCodesByCommand := by
  intro i s t _ h
  rw [← Bool.exists_bool (p := fun sBit => i = .extract sBit)]
  exact ⟨exec_badDim_iff h, exec_capacity_iff h, exec_ne_illegalCmd h⟩

/-- Settles O30: the dimensions are checked first, and only EMBED and EXTRACT report the code. -/
theorem badDimBeforeAnyAccess : Obligations.BadDimBeforeAnyAccess :=
  ⟨fun _ hf => ⟨execEmbed_of_badDim hf, fun _ => execExtract_of_badDim hf⟩,
    fun _ _ _ h he => ((exec_badDim_iff h).1 he).1⟩

/-- CAPCHK of a message that does not fit its image clears CAP_OK, and reports no error (R131, R212). -/
theorem exec_capchk_of_overflow {s : State} (hc : s.pixelCount < s.len) :
    exec .capchk s = .next (complete .none { s with capOk := false }) := by
  rw [exec_capchk, cap_eq_false_iff.2 hc]

/-- Settles O31: EMBED makes CAPCHK's comparison an error. -/
theorem embedCapacityErrorLeavesOutputs : Obligations.EmbedCapacityErrorLeavesOutputs :=
  ⟨fun _ hf hc => ⟨execEmbed_of_capacity hf hc, exec_capchk_of_overflow hc⟩,
    fun _ _ _ h he => ((exec_capacity_iff h).1 he).1⟩

/-- The CMD write of any word but SRESET, illegal words included, is its acceptance while op = IDLE (R181). -/
theorem hostAccess_writeCmd_of_idle {w : Word} {s : State} (hop : s.op = .idle) (hw : w ≠ 0x0000000F#32) :
    hostAccess (.writeWord 0x0C#32 w) s = .next (accept w { s with answer := .okay }) :=
  (hostAccess_writeReg .cmd w s).trans (offerCommand_of_idle (s := { s with answer := .okay }) hop hw)

/-- An illegal word is not SRESET. -/
theorem ne_sreset_of_decode_error {w : Word} {r : Illegal} (hd : decode w = .error r) : w ≠ 0x0000000F#32 := by
  rintro rfl
  cases hd.symm.trans (decode_encode .sreset)

/-- The engine's turn after the acceptance of an illegal word completes it with ILLEGAL_CMD (R186, R213). -/
theorem engineTurn_accept_of_illegal {w : Word} {r : Illegal} {s : State} (hd : decode w = .error r) :
    engineTurn (accept w s) = .next (complete .illegalCmd (accept w s)) :=
  (engineTurn_of_busy rfl).trans (completePending_of_illegal hd)

/-- Settles O21: the first step is the acceptance, the second the completion of the illegal word in PEND. -/
theorem illegalWordCompletes : Obligations.IllegalWordCompletes := by
  intro s w r rest hop hd
  have haccepted := hostAccess_writeCmd_of_idle (s := { s with events := .engine :: rest }) hop (ne_sreset_of_decode_error hd)
  have hcompleted := engineTurn_accept_of_illegal (s := { s with events := rest, answer := .okay }) hd
  exact ⟨_, haccepted, hcompleted⟩

end Sys2Proof.Machine
end

section
/-! The interrupt output (R220): it is raised by a completion, and it falls with DONE or with IRQ_EN. -/

namespace Sys2Proof.Machine

theorem irq_of_not_done {s : State} (h : s.done = false) : s.irq = false := by
  rw [State.irq, h, Bool.false_and]

theorem irq_of_not_irqEn {s : State} (h : s.irqEn = false) : s.irq = false := by
  rw [State.irq, h, Bool.and_false]

/-- SRESET clears DONE (R190). -/
theorem exec_sreset_irq {s t : State} (h : exec .sreset s = .next t) : t.irq = false := by
  rw [execSreset_next h]
  exact irq_of_not_done rfl

/-- A CMD write while op = IDLE clears DONE, by acceptance or as SRESET (R181, R190). -/
theorem hostAccess_writeCmd_irq {w : Word} {s t : State} (hop : s.op = .idle)
    (h : hostAccess (.writeWord 0x0C#32 w) s = .next t) : t.irq = false := by
  by_cases hw : w = 0x0000000F#32
  · subst hw
    rw [hostAccess_sreset] at h
    exact exec_sreset_irq h
  · obtain rfl := Host.Outcome.next.inj (h.symm.trans (hostAccess_writeCmd_of_idle hop hw))
    exact irq_of_not_done rfl

/-- Settles O27: what a completion leaves is O22's, and every other clause leaves DONE = 0 or IRQ_EN = 0. -/
theorem interruptFollowsDone : Obligations.InterruptFollowsDone := by
  refine ⟨fun _ => rfl, fun i s t hi h => ?_, fun s t d h hd => ?_, fun _ _ _ => hostAccess_writeCmd_irq,
    fun _ _ => exec_sreset_irq, fun _ => irq_of_not_done rfl, fun s t d h hd => ?_⟩
  · obtain ⟨-, -, hirq, -⟩ := everyCompletionEndsTheWindow i s t hi h
    exact hirq
  · obtain rfl := Host.Outcome.next.inj (h.symm.trans (hostAccess_writeStatus d s))
    exact irq_of_not_done (if_pos hd)
  · obtain rfl := Host.Outcome.next.inj (h.symm.trans (hostAccess_writeReg .ctrl d s))
    exact irq_of_not_irqEn hd

end Sys2Proof.Machine
end

section
/-! Read after write (R257): while op = IDLE a read finds what the last write put there, and nothing else has moved. -/

namespace Sys2Proof.Machine

/-- A write keeps a field's `n` low bits, and a read returns them with the reserved bits 0 (R22 (a)). -/
theorem setWidth_extractLsb'_eq_and (d : Word) (n : Nat) :
    (d.extractLsb' 0 n).setWidth 32 = d &&& BitVec.ofNat 32 (2 ^ n - 1) := by
  refine BitVec.eq_of_getLsbD_eq fun j hj => ?_
  simp only [BitVec.getLsbD_setWidth, BitVec.getLsbD_extractLsb', BitVec.getLsbD_and, BitVec.getLsbD_ofNat,
    Nat.testBit_two_pow_sub_one, hj, decide_true, Bool.true_and, Nat.zero_add, Bool.and_comm]

/-- CTRL reads with 31 zeros above its one bit, bit 0 of the word written (R25). -/
theorem append_ofBool_eq_and (d : Word) : 0#31 ++ BitVec.ofBool d[0] = d &&& 0x00000001#32 :=
  (BitVec.setWidth_eq_append (by decide)).symm.trans BitVec.and_one_eq_setWidth_ofBool_getLsbD.symm

/-- Settles O15: what an idle write does is O14's, and the block is idle after it too, so the read is R192's. -/
theorem writeThenReadReturnsValue : Obligations.WriteThenReadReturnsValue := by
  intro s d hop thenReads
  have hreg : ∀ (r : Reg) {u : State} {v : Word}, hostAccess (.writeWord r.offset d) s = .next u → u.op = .idle →
      readReg r u = v → thenReads r.offset v := fun r u v hw hu hv =>
    ⟨u, hw, hostAccess_readReg_defined (readLoc_of_idle hu) hv⟩
  obtain ⟨hctrl, -, -, -, hwidth, hheight, hlen, hpixA, hbyteA, -, -, -, -, -, -, -, hentry⟩ := idleWritesTakeEffect s d hop
  refine ⟨hreg .ctrl hctrl hop (append_ofBool_eq_and d),
    hreg .width hwidth hop (setWidth_extractLsb'_eq_and d 16),
    hreg .height hheight hop (setWidth_extractLsb'_eq_and d 16), hreg .msgLen hlen hop rfl,
    hreg .pixA hpixA hop rfl, hreg .byteA hbyteA hop (setWidth_extractLsb'_eq_and d 8), fun i hi => ?_⟩
  have hreads : ∀ (b : Buf) {u : State} {v : Word},
      hostAccess (.writeWord (b.base + BitVec.ofNat 32 (4 * i)) d) s = .next u → u.op = .idle → i < u.nMax.n →
      u.mem.entryWord b i = some v → thenReads (b.base + BitVec.ofNat 32 (4 * i)) v := fun b u v hw hu hn hv =>
    ⟨u, hw, (hostAccess_readEntry_defined b hn (readLoc_of_idle hu)).1 v hv⟩
  obtain ⟨himg, hmsg, -, -, himgRead, hmsgRead⟩ := hentry i hi
  have hmsgWord : ((s.mem.msgIn.write i (d.extractLsb' 0 8)).read i).map (BitVec.setWidth 32) =
      some (d &&& 0x000000FF#32) := by
    rw [hmsgRead]
    exact congrArg some (setWidth_extractLsb'_eq_and d 8)
  refine ⟨hreads .imgIn himg hop hi himgRead, hreads .msgIn hmsg hop hi hmsgWord, fun t ht => ?_, fun t ht => ?_⟩
  · obtain rfl := Host.Outcome.next.inj (himg.symm.trans ht)
    exact ⟨fun j hj => Store.read_write_other _ _ hj, rfl, rfl, rfl⟩
  · obtain rfl := Host.Outcome.next.inj (hmsg.symm.trans ht)
    exact ⟨fun j hj => Store.read_write_other _ _ hj, rfl, rfl, rfl⟩

end Sys2Proof.Machine
end

section
/-! Reset (R240 to R242): what a register reads as after it, and that no entry of a buffer is written. -/

namespace Sys2Proof.Machine

/-- The reset input has its turn in one step, whatever the command in progress (R240). -/
theorem step_hwReset (s : State) (rest : List Event) :
    step { s with events := .hwReset :: rest } = .next (hardwareReset { s with events := rest }) := rfl

/-- A hardware reset leaves the reset state, so what holds after every hardware reset holds in it. -/
theorem hardwareReset_resetWith (d : Depth) : hardwareReset (State.resetWith d) = State.resetWith d := rfl

/-- The engine's turn, scheduled, changes nothing but the schedule of an idle block (R185, R228). -/
theorem step_engine_of_idle {s : State} (hop : s.op = .idle) :
    step { s with events := [.engine] } = .next { s with events := [] } :=
  engineTurn_of_idle (s := { s with events := [] }) hop

/-- The word a register reads as after reset (R50). -/
def Reg.resetValue (d : Depth) (r : Reg) : Word :=
  match r with
  | .id => 0x4B4B5355#32
  | .param => BitVec.ofNat 32 d.n
  | .byteR => 0x00000100#32
  | .ctrl | .cmd | .status | .width | .height | .msgLen | .capacity | .resultLen | .pixA | .byteA | .pixR => 0x00000000#32

/-- After a hardware reset every register reads its reset value (R50, R240). -/
theorem readReg_hardwareReset (r : Reg) (s : State) : readReg r (hardwareReset s) = r.resetValue s.nMax := by
  cases r with
  | id | param | cmd | msgLen | resultLen | pixA | pixR => rfl
  | byteR => exact readReg_byteR_of_marker rfl
  | status =>
    rw [readReg_status_of_idle (hardwareReset_op s), hardwareReset_err, hardwareReset_bwe, hardwareReset_capOk,
      hardwareReset_done]
    rfl
  | ctrl | width | height | byteA => simp [readReg, Reg.resetValue]
  | capacity => simp [readReg, State.capacityWord, Reg.resetValue]

theorem readReg_resetWith (r : Reg) (d : Depth) : readReg r (State.resetWith d) = r.resetValue d := by
  rw [← hardwareReset_resetWith, readReg_hardwareReset, resetWith_nMax]

/-- Settles O4: the step is the hardware reset, which leaves every register at its reset value and the engine idle. -/
theorem hardwareResetFromAnyState : Obligations.HardwareResetFromAnyState := by
  intro s rest
  have hreg : ∀ r : Reg, readReg r (hardwareReset { s with events := rest }) = r.resetValue s.nMax := fun r =>
    readReg_hardwareReset r _
  exact ⟨_, step_hwReset s rest, hreg .ctrl, hreg .status, hreg .width, hreg .height, hreg .msgLen, hreg .resultLen,
    hreg .pixA, hreg .byteA, hreg .pixR, hreg .byteR, hreg .capacity, hreg .id, hreg .param, rfl, rfl, rfl,
    irq_of_not_done rfl, Memory.entryWord_unwritten, step_engine_of_idle rfl⟩

/-- After a hardware reset every entry is unwritten, so a read of one that exists faults (R241, U3). -/
theorem hardwareReset_unwritten (s : State) (b : Buf) (i : Nat) : (hardwareReset s).mem.entryWord b i = none ∧
    (i < s.nMax.n → hostAccess (.readWord (b.base + BitVec.ofNat 32 (4 * i))) (hardwareReset s) =
      .fault (.hostReadUnwritten b i)) :=
  ⟨Memory.entryWord_unwritten b i, fun hi =>
    (hostAccess_readEntry_defined b (s := hardwareReset s) hi (readLoc_of_idle rfl)).2 (Memory.entryWord_unwritten b i)⟩

/-- Settles O5: the reset state is one after a hardware reset too. -/
theorem buffersUnwrittenAfterReset : Obligations.BuffersUnwrittenAfterReset := by
  refine ⟨fun s t rest h => ?_, fun d => ?_⟩
  · obtain rfl := Host.Outcome.next.inj ((step_hwReset s rest).symm.trans h)
    exact hardwareReset_unwritten _
  · rw [← hardwareReset_resetWith]
    exact hardwareReset_unwritten _

/-- Settles O6: SRESET resets the same registers, and keeps the buffers of an idle block. -/
theorem softResetMatchesHardwareReset : Obligations.SoftResetMatchesHardwareReset := by
  refine ⟨fun d => ⟨rfl, rfl, rfl, readReg_resetWith .status d, step_engine_of_idle rfl⟩, fun s => ?_⟩
  cases hop : s.op with
  | idle => exact ⟨s.mem, exec_sreset_of_idle hop, fun _ => rfl, nofun⟩
  | busy => exact ⟨abortedMem s, exec_sreset_of_busy hop, nofun, fun _ => rfl⟩

/-- Settles O54: the buffers are empty, op = IDLE, and RESULT_LEN and ERR are 0. -/
theorem invariantAtReset : Obligations.InvariantAtReset := by
  have hinv : ∀ d : Depth, (State.resetWith d).Inv := fun d =>
    { memWf := Memory.wf_unwritten d.n
      doneIdle := nofun
      busyErr := nofun
      busyPend := nofun
      resultBound := Nat.zero_le d.n
      capacityErr := nofun
      msgOutNoZero := nofun
      tempsSorted := .nil }
  exact ⟨hinv, hinv Config.nMax⟩

end Sys2Proof.Machine
end

section
/-! The commands right after reset (R243): W = H = L = 0 are legal operands, for every N_MAX. -/

namespace Sys2Proof.Machine

/-- L = 0 fits W × H = 0 (R130). -/
theorem len_le_pixelCount_resetWith (d : Depth) : (State.resetWith d).len ≤ (State.resetWith d).pixelCount :=
  Nat.le_refl 0

/-- W × H = 0 fits every N_MAX (R211). -/
theorem pixelCount_le_nMax_resetWith (d : Depth) : (State.resetWith d).pixelCount ≤ (State.resetWith d).nMax.n :=
  Nat.zero_le d.n

/-- EMBED's walk visits no pixel: it succeeds and writes nothing (R243). -/
theorem exec_embed_resetWith (d : Depth) :
    exec .embed (State.resetWith d) = .next (complete .none { State.resetWith d with capOk := true }) :=
  execEmbed_of_walk (s := State.resetWith d) (k := 0) (pixelCount_le_nMax_resetWith d) (len_le_pixelCount_resetWith d) rfl

/-- EXTRACT's walk visits no column: it succeeds and writes nothing (R243). -/
theorem exec_extract_resetWith (d : Depth) (sBit : Bool) :
    exec (.extract sBit) (State.resetWith d) = .next (complete .none (State.resetWith d)) :=
  execExtract_of_walk (s := State.resetWith d) (sBit := sBit) (k := 0) (pixelCount_le_nMax_resetWith d) rfl

/-- PACK always completes with NONE, and PIX_R is all it writes besides (R150). -/
theorem exec_pack (s : State) : exec .pack s = .next (complete .none { s with pixR := pack s.pixA s.byteA }) := rfl

/-- Settles O7: the two walks are over nothing, and `pack` and `unpack` of 0 are 0. -/
theorem commandsRightAfterReset : Obligations.CommandsRightAfterReset := fun d =>
  ⟨⟨_, exec_capchk _, cap_eq_true_iff.2 (len_le_pixelCount_resetWith d)⟩, ⟨_, exec_embed_resetWith d, rfl, rfl, rfl⟩,
    fun sBit => ⟨_, exec_extract_resetWith d sBit, rfl, rfl, rfl⟩, ⟨_, exec_pack _, pack_zero 0#32⟩,
    ⟨_, exec_unpack _, readReg_byteR_of_marker (unpack_eq_zero_iff (P := 0#32).2 rfl)⟩⟩

end Sys2Proof.Machine
end
